-- ==== Sys2Proof/Word.lean ====
section
/-! DEFINITION. The words of the mnemonic encoder core (spec/00_scope.md R8, spec/30_encoding.md R61 to R67): one fixed width
for each data format, and the four names of the sequencer register. Nothing here computes. -/

namespace Sys2Proof

/-- A byte: 8 bits (R12). -/
abbrev Byte := BitVec 8

/-- Format ENT, 256 bits: the Entropy, byte 0 in bits 255 to 248 (R61). Format MSG is the same (R62). -/
abbrev Ent := BitVec 256

/-- Format DIG, 256 bits: a digest of the hash engine, byte 0 in bits 255 to 248 (R63). -/
abbrev Dig := BitVec 256

/-- Format CS, 8 bits: the Checksum, first checksum bit in bit 7 (R64). -/
abbrev Cs := BitVec 8

/-- Format COMB, 264 bits: the Combined bit sequence (R65). Format FLAT has the same bits in the same places (R66). -/
abbrev Comb := BitVec 264

/-- Format IDX, 11 bits: a word index, a type with exactly 2048 values, as R113 asks (R66). -/
abbrev Idx := BitVec 11

/-- The 24 word indices, index 0 first (R110, R139). Twenty-three or twenty-five indices are unrepresentable. -/
abbrev Indices := Vector Idx 24

/-- The 7-bit control vector `ctl` (R71). -/
abbrev Ctl := BitVec 7

/-- The value of the 2-bit sequencer register `state` (R23, R67). All four codes are used, so the four names are exactly the
four values of the register (the codes: `SeqState.code`, Decode.lean). -/
inductive SeqState where
  /-- No transaction; the input channel is open. -/
  | idle
  /-- Entropy captured; the hash request is offered. -/
  | req
  /-- The hash request was taken; the response is awaited. -/
  | wait
  /-- Checksum captured; the 24 indices are offered. -/
  | done
  deriving DecidableEq, Repr

end Sys2Proof
end

