-- ==== Sys2Proof/Config.lean ====
section
/-! DEFINITION. What is fixed for the machine: the constants of R8, the input ports of R60, and the two things the spec leaves
open, as uninterpreted constants: the hash function `HASH` (R9) and what the environment drives at an edge for which no
stimulus was given. -/

namespace Sys2Proof

/-! The fixed constants of R8. None is configurable (R6). -/

/-- Width of the entropy. -/
def Config.entBits : Nat := 256
/-- Bytes of the entropy. -/
def Config.entBytes : Nat := 32
/-- Bytes of the hash output. -/
def Config.digestBytes : Nat := 32
/-- Width of the hash output. -/
def Config.digestBits : Nat := 256
/-- Width of the checksum. -/
def Config.csBits : Nat := 8
/-- Width of the combined bit sequence. -/
def Config.combBits : Nat := 264
/-- Width of one group and of one word index. -/
def Config.groupBits : Nat := 11
/-- Number of groups. -/
def Config.nWords : Nat := 24
/-- Number of dictionary entries. -/
def Config.dictSize : Nat := 2048
/-- Largest word index. -/
def Config.idxMax : Nat := 2047

/-- The input ports of the block but for `clk`, as sampled at one rising edge of `clk` (R60, R27). Every value of every field is
legal (R75). -/
structure Inputs where
  /-- `rst`: synchronous, active-high reset. -/
  rst : Bool
  /-- `in_valid`: the caller offers an entropy. -/
  inValid : Bool
  /-- `in_entropy[255:0]`. -/
  inEntropy : Ent
  /-- `hreq_ready`: the hash engine can take the request. -/
  hreqReady : Bool
  /-- `hresp_valid`: the hash engine offers a digest. -/
  hrespValid : Bool
  /-- `hresp_digest[255:0]`. -/
  hrespDigest : Dig
  /-- `out_ready`: the caller can take the indices. -/
  outReady : Bool
  deriving DecidableEq, Repr, Inhabited

/-- `HASH`, the open parameter of R9: a function from 32 bytes to 32 bytes, and nothing else is assumed of it. It has no body: no
proof can see a value of it (log entry 1; the SHA-256 instance stands beside it in Machine/Sha256.lean). -/
opaque Config.hash : Ent → Dig

/-- What the caller and the hash engine drive on the input ports at the edge of the given number, when the stimulus of the
state is exhausted. A free value: the environment chooses freely (R59, R173), so it has no body (log entry 3). -/
opaque Config.freeInputs : Nat → Inputs

end Sys2Proof
end

