-- ==== Sys2Proof/Syntax.lean ====
section
/-! DEFINITION. The operations of the block, which stand where another hardware has instructions (R1, R72): one constructor for
each of the 40 rows of spec/opcode_table.json, with the operands the row names; and the trace notation in which stimulus
programs are written (R77, R78). -/

namespace Sys2Proof

/-- The operations of R72, a constructor per row of spec/opcode_table.json: 31 datapath operations, which are pure functions of
the operands they carry, and the nine step patterns of R73. `HOLD` has four patterns, so four constructors. -/
inductive Instr where
  /-- `CSUM`: the checksum of an entropy (R90). -/
  | csum (ent : Ent)
  /-- `MSG`: the hash message of an entropy (R91). -/
  | msg (ent : Ent)
  /-- `TRUNC8`: the first byte of a digest (R92). -/
  | trunc8 (digest : Dig)
  /-- `BCAT`: entropy followed by checksum (R100). -/
  | bcat (ent : Ent) (cs : Cs)
  /-- `SLICE`: the 24 word indices of a combined word (R110). -/
  | slice (comb : Comb)
  /-- `SLICE.0`: word index 0 of a combined word (R115). -/
  | slice0 (comb : Comb)
  /-- `SLICE.1`: word index 1 of a combined word (R116). -/
  | slice1 (comb : Comb)
  /-- `SLICE.2`: word index 2 of a combined word (R117). -/
  | slice2 (comb : Comb)
  /-- `SLICE.3`: word index 3 of a combined word (R118). -/
  | slice3 (comb : Comb)
  /-- `SLICE.4`: word index 4 of a combined word (R119). -/
  | slice4 (comb : Comb)
  /-- `SLICE.5`: word index 5 of a combined word (R120). -/
  | slice5 (comb : Comb)
  /-- `SLICE.6`: word index 6 of a combined word (R121). -/
  | slice6 (comb : Comb)
  /-- `SLICE.7`: word index 7 of a combined word (R122). -/
  | slice7 (comb : Comb)
  /-- `SLICE.8`: word index 8 of a combined word (R123). -/
  | slice8 (comb : Comb)
  /-- `SLICE.9`: word index 9 of a combined word (R124). -/
  | slice9 (comb : Comb)
  /-- `SLICE.10`: word index 10 of a combined word (R125). -/
  | slice10 (comb : Comb)
  /-- `SLICE.11`: word index 11 of a combined word (R126). -/
  | slice11 (comb : Comb)
  /-- `SLICE.12`: word index 12 of a combined word (R127). -/
  | slice12 (comb : Comb)
  /-- `SLICE.13`: word index 13 of a combined word (R128). -/
  | slice13 (comb : Comb)
  /-- `SLICE.14`: word index 14 of a combined word (R129). -/
  | slice14 (comb : Comb)
  /-- `SLICE.15`: word index 15 of a combined word (R130). -/
  | slice15 (comb : Comb)
  /-- `SLICE.16`: word index 16 of a combined word (R131). -/
  | slice16 (comb : Comb)
  /-- `SLICE.17`: word index 17 of a combined word (R132). -/
  | slice17 (comb : Comb)
  /-- `SLICE.18`: word index 18 of a combined word (R133). -/
  | slice18 (comb : Comb)
  /-- `SLICE.19`: word index 19 of a combined word (R134). -/
  | slice19 (comb : Comb)
  /-- `SLICE.20`: word index 20 of a combined word (R135). -/
  | slice20 (comb : Comb)
  /-- `SLICE.21`: word index 21 of a combined word (R136). -/
  | slice21 (comb : Comb)
  /-- `SLICE.22`: word index 22 of a combined word (R137). -/
  | slice22 (comb : Comb)
  /-- `SLICE.23`: word index 23 of a combined word (R138). -/
  | slice23 (comb : Comb)
  /-- `FLAT`: the 24 indices on one bus (R112). -/
  | flat (idx : Indices)
  /-- `ENCODE`: entropy to mnemonic (R149). -/
  | encode (ent : Ent)
  /-- `RESET`: pattern 1xxxxxx (R142). -/
  | reset
  /-- `ACCEPT`: pattern 0001xxx; the operand is the value on `in_entropy` (R143). -/
  | accept (inEntropy : Ent)
  /-- `HREQ`: pattern 001x1xx (R144). -/
  | hreq
  /-- `HRESP`: pattern 010xx1x; the operand is the value on `hresp_digest` (R145). -/
  | hresp (hrespDigest : Dig)
  /-- `DELIVER`: pattern 011xxx1 (R146). -/
  | deliver
  /-- `HOLD` in `IDLE`: pattern 0000xxx (R148). -/
  | holdIdle
  /-- `HOLD` in `REQ`: pattern 001x0xx (R148). -/
  | holdReq
  /-- `HOLD` in `WAIT`: pattern 010xx0x (R148). -/
  | holdWait
  /-- `HOLD` in `DONE`: pattern 011xxx0 (R148). -/
  | holdDone
  deriving DecidableEq, Repr

/-- A hexadecimal string as its digits, first digit first (R12). -/
abbrev Hex := List (Fin 16)

/-- One line of the trace notation (R77), with the pseudo-line `HRSP HASH` of R78, which the programs of spec/95_test_vectors.md
also use inside a union. -/
inductive Line where
  /-- `NOP`: no input is 1. -/
  | nop
  /-- `RST`: `rst = 1`. -/
  | rst
  /-- `PUT <64 hex digits>`: an entropy is offered. -/
  | put (hex : Hex)
  /-- `HGO`: the engine takes a request. -/
  | hgo
  /-- `HRSP <64 hex digits>`: the engine offers a digest. -/
  | hrsp (hex : Hex)
  /-- `HRSP HASH`: the engine offers the digest of the message it holds. -/
  | hrspHash
  /-- `GET`: the caller takes the indices. -/
  | get
  /-- `A + B`: the union of the inputs of two lines. -/
  | plus (a b : Line)
  deriving DecidableEq, Repr

/-- A line of a stimulus program: a line of R77, or a pseudo-line of R78 that stands for several lines. -/
inductive Pseudo where
  /-- One line, one edge. -/
  | line (l : Line)
  /-- `ENCODE <64 hex digits>`: one whole transaction at minimum latency. -/
  | encode (hex : Hex)
  /-- `WAIT n`: `n` idle edges. -/
  | wait (n : Nat)
  deriving DecidableEq, Repr

end Sys2Proof
end

