-- ==== Sys2Proof/WellFormed.lean ====
section
/-! DEFINITION. What a well-formed operation and a well-formed trace line are. Every width is in the type, as R191 asks ("make
this unrepresentable"), so a term of `Instr` needs no check; the trace notation is text, and text can have the wrong length. -/

namespace Sys2Proof

/-- The two kinds of operation (R72, the "kind" of spec/opcode_table.json). -/
inductive Kind where
  /-- A pure function, active in every cycle, with no selecting bits. -/
  | datapath
  /-- A sequencer step, selected by `ctl`. -/
  | step
  deriving DecidableEq, Repr

/-- The kind of an operation (R72). -/
def Instr.kind : Instr → Kind
  | .csum _ | .msg _ | .trunc8 _ | .bcat _ _ | .slice _ => .datapath
  | .slice0 _ | .slice1 _ | .slice2 _ | .slice3 _ | .slice4 _ | .slice5 _ => .datapath
  | .slice6 _ | .slice7 _ | .slice8 _ | .slice9 _ | .slice10 _ | .slice11 _ => .datapath
  | .slice12 _ | .slice13 _ | .slice14 _ | .slice15 _ | .slice16 _ | .slice17 _ => .datapath
  | .slice18 _ | .slice19 _ | .slice20 _ | .slice21 _ | .slice22 _ | .slice23 _ => .datapath
  | .flat _ | .encode _ => .datapath
  | .reset | .accept _ | .hreq | .hresp _ | .deliver => .step
  | .holdIdle | .holdReq | .holdWait | .holdDone => .step

/-- A hexadecimal operand of a trace line has exactly 64 digits, 256 bits (R77; R76, R191: never padded, never truncated). A line
whose operand has another length is ill-formed and has no inputs (DEDUCED, log entry 10). -/
def Hex.wellFormed (h : Hex) : Bool := h.length == 64

/-- Does the line name a value for `in_entropy`? -/
def Line.namesEntropy : Line → Bool
  | .put _ => true
  | .plus a b => a.namesEntropy || b.namesEntropy
  | .nop | .rst | .hgo | .hrsp _ | .hrspHash | .get => false

/-- Does the line name a value for `hresp_digest`? -/
def Line.namesDigest : Line → Bool
  | .hrsp _ | .hrspHash => true
  | .plus a b => a.namesDigest || b.namesDigest
  | .nop | .rst | .put _ | .hgo | .get => false

/-- A trace line is well formed when its hexadecimal operands have 64 digits and no union names a data input twice (DESIGN CHOICE,
log entry 10: R77 gives the union of the codes and does not say what two values on one wire are). -/
def Line.wellFormed : Line → Bool
  | .put h | .hrsp h => h.wellFormed
  | .plus a b =>
    a.wellFormed && b.wellFormed && !(a.namesEntropy && b.namesEntropy) && !(a.namesDigest && b.namesDigest)
  | .nop | .rst | .hgo | .hrspHash | .get => true

/-- A line of a program is well formed when its parts are (R78). -/
def Pseudo.wellFormed : Pseudo → Bool
  | .line l => l.wellFormed
  | .encode h => h.wellFormed
  | .wait _ => true

end Sys2Proof
end

