-- ==== Sys2Proof/Decode.lean ====
section
/-! DEFINITION. From bits to operations and back (spec/30_encoding.md sections 2 to 5 and 7): the byte and bit numberings of R11
and R12, the codes of the sequencer state (R67), the control vector (R71), the step decode table (R73) and its decoder, the
instruction as bytes, the encoder, and the 517-bit encoding of a trace line (R77). Datapath operations have no selecting
bits (R72, R75): no word decodes to one and the encoder has no word for one (log entry 4). -/

namespace Sys2Proof

/-! ## Bytes and bits (R11, R12) -/

/-- `byte(X, j) = X[W-1-8j : W-8-8j]` (R12): byte 0 holds the most significant bits. -/
def byteAt {w : Nat} (x : BitVec w) (j : Nat) : Byte := x.extractLsb' (w - 8 - 8 * j) 8

/-- `seq(X, p) = X[W-1-p]` (R11): sequence position 0 is the most significant bit. -/
def seqAt {w : Nat} (x : BitVec w) (p : Nat) : Bool := x.getLsbD (w - 1 - p)

/-- The 32 bytes of a 256-bit word, byte 0 first (R43). -/
def wordBytes (x : BitVec 256) : List Byte := (List.range 32).map (byteAt x)

/-- The 256-bit word whose bytes are the list's, byte 0 first (R12: the big-endian value of its bytes). -/
def wordOfBytes (bs : List Byte) : BitVec 256 := bs.foldl (fun acc b => (acc <<< 8) ||| b.setWidth 256) 0

/-! ## The sequencer state's codes (R67) -/

/-- `IDLE = 00`, `REQ = 01`, `WAIT = 10`, `DONE = 11` (R23, R67). -/
def SeqState.code : SeqState → BitVec 2
  | .idle => 0b00
  | .req => 0b01
  | .wait => 0b10
  | .done => 0b11

/-- The state a 2-bit code names; every code names one (R75). -/
def SeqState.ofCode (c : BitVec 2) : SeqState :=
  if c = 0b00 then .idle else if c = 0b01 then .req else if c = 0b10 then .wait else .done

/-! ## The control vector (R71) -/

/-- The 5-bit input code `{rst, in_valid, hreq_ready, hresp_valid, out_ready}` of a trace line (R77). -/
def lineCode (i : Inputs) : BitVec 5 :=
  BitVec.ofBool i.rst ++ BitVec.ofBool i.inValid ++ BitVec.ofBool i.hreqReady ++ BitVec.ofBool i.hrespValid
    ++ BitVec.ofBool i.outReady

/-- `ctl[6:0] = {rst, state[1], state[0], in_valid, hreq_ready, hresp_valid, out_ready}` (R71): the current state inserted into the
input code of the line (R77). -/
def ctlOf (st : SeqState) (i : Inputs) : Ctl :=
  BitVec.ofBool i.rst ++ st.code ++ BitVec.ofBool i.inValid ++ BitVec.ofBool i.hreqReady ++ BitVec.ofBool i.hrespValid
    ++ BitVec.ofBool i.outReady

/-! ## The step decode table (R73) -/

/-- One row of R73: selected when `(ctl & mask) == match`. -/
structure StepRow where
  /-- The step's name. -/
  mnemonic : String
  /-- The column "match". -/
  matchBits : Ctl
  /-- The column "mask". -/
  mask : Ctl
  deriving DecidableEq, Repr

/-- Does the row select the control vector? (R73) -/
def StepRow.selects (r : StepRow) (c : Ctl) : Bool := c &&& r.mask == r.matchBits

/-- The nine rows of R73, in its order. -/
def stepRows : List StepRow :=
  [⟨"RESET", 0x40, 0x40⟩, ⟨"ACCEPT", 0x08, 0x78⟩, ⟨"HREQ", 0x14, 0x74⟩, ⟨"HRESP", 0x22, 0x72⟩, ⟨"DELIVER", 0x31, 0x71⟩,
   ⟨"HOLD", 0x00, 0x78⟩, ⟨"HOLD", 0x10, 0x74⟩, ⟨"HOLD", 0x20, 0x72⟩, ⟨"HOLD", 0x30, 0x71⟩]

/-- The step a control vector selects (R73), with its operand taken from the data inputs `in_entropy` and `hresp_digest`, which
are no part of the selection (R71). The rows are disjoint and cover every value (R74), so the order of the tests does not
matter and the last row needs none. -/
def decodeCtl (c : Ctl) (inEntropy : Ent) (hrespDigest : Dig) : Instr :=
  if c &&& 0x40 = 0x40 then .reset
  else if c &&& 0x78 = 0x08 then .accept inEntropy
  else if c &&& 0x74 = 0x14 then .hreq
  else if c &&& 0x72 = 0x22 then .hresp hrespDigest
  else if c &&& 0x71 = 0x31 then .deliver
  else if c &&& 0x78 = 0x00 then .holdIdle
  else if c &&& 0x74 = 0x10 then .holdReq
  else if c &&& 0x72 = 0x20 then .holdWait
  else .holdDone

/-! ## The instruction as bytes

The spec lays a trace line out as its input code followed by the 256 bits of `in_entropy` and the 256 bits of `hresp_digest`
(R77). The instruction as bytes is the same line with the state inserted into the code: one byte with `ctl` in bits 6 to 0 and
bit 7 zero, 32 bytes of `in_entropy`, 32 bytes of `hresp_digest`, each byte 0 first (DESIGN CHOICE, log entry 5). -/

/-- Why a byte string is no instruction. The spec has no illegal control vector (R75): only the shape can be wrong. -/
inductive DecodeError where
  /-- The string has not the 65 bytes of a control vector and two data words. Safe: nothing of the hardware has such a shape. -/
  | wrongLength (n : Nat)
  /-- Bit 7 of the first byte is 1; a control vector has 7 bits. Safe, for the same reason. -/
  | notAControlVector (b : Byte)
  deriving DecidableEq, Repr

/-- The bytes of a control vector with its data words. -/
def instrBytes (c : Ctl) (inEntropy : Ent) (hrespDigest : Dig) : List Byte :=
  c.setWidth 8 :: (wordBytes inEntropy ++ wordBytes hrespDigest)

/-- The decoder, total on any byte string: it refuses, by name, what has not the shape of an instruction. -/
def decode (bs : List Byte) : Except DecodeError Instr :=
  match bs with
  | [] => .error (.wrongLength 0)
  | b :: data =>
    if data.length = 64 then
      if b.msb then .error (.notAControlVector b)
      else .ok (decodeCtl (b.setWidth 7) (wordOfBytes (data.take 32)) (wordOfBytes (data.drop 32)))
    else .error (.wrongLength (data.length + 1))

/-- The control vector, with every don't-care bit 0, that selects a step: the column "match" of R73. A datapath operation has
no selecting bits (R72). -/
def Instr.ctl : Instr → Option Ctl
  | .reset => some 0x40
  | .accept _ => some 0x08
  | .hreq => some 0x14
  | .hresp _ => some 0x22
  | .deliver => some 0x31
  | .holdIdle => some 0x00
  | .holdReq => some 0x10
  | .holdWait => some 0x20
  | .holdDone => some 0x30
  | .csum _ | .msg _ | .trunc8 _ | .bcat _ _ | .slice _ => none
  | .slice0 _ | .slice1 _ | .slice2 _ | .slice3 _ | .slice4 _ | .slice5 _ => none
  | .slice6 _ | .slice7 _ | .slice8 _ | .slice9 _ | .slice10 _ | .slice11 _ => none
  | .slice12 _ | .slice13 _ | .slice14 _ | .slice15 _ | .slice16 _ | .slice17 _ => none
  | .slice18 _ | .slice19 _ | .slice20 _ | .slice21 _ | .slice22 _ | .slice23 _ => none
  | .flat _ | .encode _ => none

/-- The columns "mask" of R73: which bits of the control vector the step's pattern fixes. -/
def Instr.ctlMask : Instr → Option Ctl
  | .reset => some 0x40
  | .accept _ => some 0x78
  | .hreq => some 0x74
  | .hresp _ => some 0x72
  | .deliver => some 0x71
  | .holdIdle => some 0x78
  | .holdReq => some 0x74
  | .holdWait => some 0x72
  | .holdDone => some 0x71
  | .csum _ | .msg _ | .trunc8 _ | .bcat _ _ | .slice _ => none
  | .slice0 _ | .slice1 _ | .slice2 _ | .slice3 _ | .slice4 _ | .slice5 _ => none
  | .slice6 _ | .slice7 _ | .slice8 _ | .slice9 _ | .slice10 _ | .slice11 _ => none
  | .slice12 _ | .slice13 _ | .slice14 _ | .slice15 _ | .slice16 _ | .slice17 _ => none
  | .slice18 _ | .slice19 _ | .slice20 _ | .slice21 _ | .slice22 _ | .slice23 _ => none
  | .flat _ | .encode _ => none

/-- The value a step wants on `in_entropy`; zero where it reads none (R77: data inputs not named are all zeros). -/
def Instr.inEntropy : Instr → Ent
  | .accept e => e
  | _ => 0

/-- The value a step wants on `hresp_digest`; zero where it reads none. -/
def Instr.hrespDigest : Instr → Dig
  | .hresp d => d
  | _ => 0

/-- The encoder: the bytes of a step, `none` for a datapath operation, which no bits select (R72). -/
def encode (i : Instr) : Option (List Byte) :=
  i.ctl.map fun c => instrBytes c i.inEntropy i.hrespDigest

/-- The bytes of an instruction whose bits are the low `nbits` bits of `w`, bit 0 the least significant bit of the first byte. -/
def tableBytes (nbits w : Nat) : List Byte :=
  (List.range 65).map fun j => BitVec.ofNat 8 ((w % 2 ^ nbits) >>> (8 * j))

/-- What the decoder reads from a word of spec/opcode_table.json, numbered as the table numbers it. -/
def decodeTableWord (nbits w : Nat) : Option Instr :=
  match decode (tableBytes nbits w) with
  | .ok i => some i
  | .error _ => none

/-! ## The encoding of a trace line (R77) -/

/-- "Its 5-bit input code followed by the 256 bits of `in_entropy` and the 256 bits of `hresp_digest` (517 bits)" (R77). -/
def encodeLine (i : Inputs) : BitVec 517 := lineCode i ++ i.inEntropy ++ i.hrespDigest

/-- The inputs a 517-bit line sets (R77). -/
def decodeLine (l : BitVec 517) : Inputs :=
  { rst := l.getLsbD 516, inValid := l.getLsbD 515, inEntropy := l.extractLsb' 256 256, hreqReady := l.getLsbD 514,
    hrespValid := l.getLsbD 513, hrespDigest := l.extractLsb' 0 256, outReady := l.getLsbD 512 }

end Sys2Proof
end

