-- ==== Sys2Proof/Machine/State.lean ====
section
/-! DEFINITION. The state of the machine (spec/10_state.md). Three registers are the block's (R20); one field is the hash engine's
(R29); four are the model's own and no hardware's: the stimulus still to come, the number of edges taken, the results the
caller has taken, and the value a datapath operation was last seen to give. -/

namespace Sys2Proof.Machine

/-- A result of a datapath operation, as an observer of its wires reads it (R72's column "operands -> result"). -/
inductive Probe where
  /-- An 8-bit checksum: the result of `CSUM` and of `TRUNC8`. -/
  | cs (v : Cs)
  /-- A 256-bit message: the result of `MSG`. -/
  | msg (v : Ent)
  /-- A 264-bit combined word: the result of `BCAT`. -/
  | comb (v : Comb)
  /-- One index and its position: the result of `SLICE.k`. -/
  | index (k : Fin 24) (v : Idx)
  /-- All 24 indices: the result of `SLICE` and of `ENCODE`. -/
  | indices (v : Indices)
  /-- The 24 indices on one bus: the result of `FLAT`. -/
  | bus (v : Comb)
  deriving DecidableEq, Repr

/-- The state. Plain data. -/
structure State where
  /-- `state[1:0]`: the sequencer register (R20, R23). -/
  state : SeqState
  /-- `ent_q[255:0]`: the entropy of the transaction in flight (R20, R21). -/
  entQ : Ent
  /-- `cs_q[7:0]`: the checksum of the transaction in flight (R20, R22). -/
  csQ : Cs
  /-- `hq`: the pending request of the hash engine, which is outside the block (R29, R171). -/
  hq : Option Ent
  /-- The model's own: the input vectors of the coming edges, the next one first; a stimulus program's lines (R77). -/
  stim : List Inputs
  /-- The model's own: how many edges have been taken; it numbers the free inputs and nothing else reads it. -/
  edge : Nat
  /-- The model's own: the values of `out_idx_flat` the caller has taken, oldest first, which R157 calls what is observed. -/
  taken : List Comb
  /-- The model's own: the result of the datapath operation evaluated last (log entry 4). Nothing reads it. -/
  probe : Option Probe
  deriving DecidableEq, Repr

/-- Why the machine stops with a fault: it never does. "A model must … not add a fault outcome" (R190), "no fault constructor at
all" (R206): the type is empty. -/
inductive Fault where
  deriving DecidableEq, Repr

/-- Why the machine refuses an operation. -/
inductive Refusal where
  /-- The operation has no meaning in the model yet, raised by its arm of `exec` alone. Safe. No arm raises it now. -/
  | notModelled (mnemonic : String)
  deriving DecidableEq, Repr

/-- What a meaning answers. -/
abbrev Result := Host.Outcome State Fault Refusal

/-- The machine after a rising edge with `rst = 1` (R31): `state = IDLE`, `ent_q = 0`, `cs_q = 0`, and, the reset being shared,
`hq = none` (R29). The model's own fields are empty (DESIGN CHOICE, log entry 13). -/
def State.reset : State :=
  { state := .idle, entQ := 0, csQ := 0, hq := none, stim := [], edge := 0, taken := [], probe := none }

/-- The machine after power-on and before the first edge with `rst = 1`: the registers hold any of their 2^266 values (R32, U1),
so they are arguments. -/
def State.powerOn (state : SeqState) (entQ : Ent) (csQ : Cs) (hq : Option Ent) : State :=
  { state := state, entQ := entQ, csQ := csQ, hq := hq, stim := [], edge := 0, taken := [], probe := none }

end Sys2Proof.Machine
end

