-- ==== Sys2Proof/Machine/Operands.lean ====
section
/-! DEFINITION. Operand assembly (R68): the datapath operations as functions of their operands, each as its rule gives it. They
read no register and write none (R14). Those that need the hash take it as an argument, so that what holds for every `HASH`
is stated for every `HASH`, and the toy and SHA-256 instances of spec/95_test_vectors.md can be given to them. -/

namespace Sys2Proof.Machine

/-! ## entropy_to_checksum (spec/40) -/

/-- `MSG(ent) = ent`: no byte swap, no padding, no prefix (R91). -/
def msg (ent : Ent) : Ent := ent

/-- `TRUNC8(digest) = digest[255:248]` (R92). -/
def trunc8 (digest : Dig) : Cs := digest.extractLsb 255 248

/-- `CSUM(ent) = TRUNC8(HASH(MSG(ent)))` for a hash (R90). -/
def csum (hash : Ent → Dig) (ent : Ent) : Cs := trunc8 (hash (msg ent))

/-! ## bit_concatenator (spec/41) -/

/-- `BCAT(ent, cs) = (ent[255:0], cs[7:0])`, entropy first (R100). -/
def bcat (ent : Ent) (cs : Cs) : Comb := ent ++ cs

/-! ## slice_and_index (spec/42) -/

/-- `idx[k] = comb[263-11k : 253-11k]` (R68, R110). -/
def group (comb : Comb) (k : Nat) : Idx := comb.extractLsb' (253 - 11 * k) 11

/-- `SLICE(comb)`: the 24 consecutive groups, in order (R110). -/
def slice (comb : Comb) : Indices := Vector.ofFn fun k => group comb k.val

/-- `idx[0] = comb[263:253]` (R115). -/
def slice0 (comb : Comb) : Idx := comb.extractLsb 263 253

/-- `idx[1] = comb[252:242]` (R116). -/
def slice1 (comb : Comb) : Idx := comb.extractLsb 252 242

/-- `idx[2] = comb[241:231]` (R117). -/
def slice2 (comb : Comb) : Idx := comb.extractLsb 241 231

/-- `idx[3] = comb[230:220]` (R118). -/
def slice3 (comb : Comb) : Idx := comb.extractLsb 230 220

/-- `idx[4] = comb[219:209]` (R119). -/
def slice4 (comb : Comb) : Idx := comb.extractLsb 219 209

/-- `idx[5] = comb[208:198]` (R120). -/
def slice5 (comb : Comb) : Idx := comb.extractLsb 208 198

/-- `idx[6] = comb[197:187]` (R121). -/
def slice6 (comb : Comb) : Idx := comb.extractLsb 197 187

/-- `idx[7] = comb[186:176]` (R122). -/
def slice7 (comb : Comb) : Idx := comb.extractLsb 186 176

/-- `idx[8] = comb[175:165]` (R123). -/
def slice8 (comb : Comb) : Idx := comb.extractLsb 175 165

/-- `idx[9] = comb[164:154]` (R124). -/
def slice9 (comb : Comb) : Idx := comb.extractLsb 164 154

/-- `idx[10] = comb[153:143]` (R125). -/
def slice10 (comb : Comb) : Idx := comb.extractLsb 153 143

/-- `idx[11] = comb[142:132]` (R126). -/
def slice11 (comb : Comb) : Idx := comb.extractLsb 142 132

/-- `idx[12] = comb[131:121]` (R127). -/
def slice12 (comb : Comb) : Idx := comb.extractLsb 131 121

/-- `idx[13] = comb[120:110]` (R128). -/
def slice13 (comb : Comb) : Idx := comb.extractLsb 120 110

/-- `idx[14] = comb[109:99]` (R129). -/
def slice14 (comb : Comb) : Idx := comb.extractLsb 109 99

/-- `idx[15] = comb[98:88]` (R130). -/
def slice15 (comb : Comb) : Idx := comb.extractLsb 98 88

/-- `idx[16] = comb[87:77]` (R131). -/
def slice16 (comb : Comb) : Idx := comb.extractLsb 87 77

/-- `idx[17] = comb[76:66]` (R132). -/
def slice17 (comb : Comb) : Idx := comb.extractLsb 76 66

/-- `idx[18] = comb[65:55]` (R133). -/
def slice18 (comb : Comb) : Idx := comb.extractLsb 65 55

/-- `idx[19] = comb[54:44]` (R134). -/
def slice19 (comb : Comb) : Idx := comb.extractLsb 54 44

/-- `idx[20] = comb[43:33]` (R135). -/
def slice20 (comb : Comb) : Idx := comb.extractLsb 43 33

/-- `idx[21] = comb[32:22]` (R136). -/
def slice21 (comb : Comb) : Idx := comb.extractLsb 32 22

/-- `idx[22] = comb[21:11]` (R137). -/
def slice22 (comb : Comb) : Idx := comb.extractLsb 21 11

/-- `idx[23] = comb[10:0]` (R138). -/
def slice23 (comb : Comb) : Idx := comb.extractLsb 10 0

/-- `FLAT(idx)`: the indices side by side, index 0 highest (R112). -/
def flat (idx : Indices) : Comb :=
  idx[0] ++ idx[1] ++ idx[2] ++ idx[3] ++ idx[4] ++ idx[5] ++ idx[6] ++ idx[7] ++ idx[8] ++ idx[9] ++ idx[10] ++ idx[11]
    ++ idx[12] ++ idx[13] ++ idx[14] ++ idx[15] ++ idx[16] ++ idx[17] ++ idx[18] ++ idx[19] ++ idx[20] ++ idx[21] ++ idx[22]
    ++ idx[23]

/-- Byte `j` of the combined word read as 33 bytes, with `B[33] = B[34] = 0` appended as a reading aid (R70). -/
def combByte (comb : Comb) (j : Nat) : Nat := if j < 33 then (byteAt comb j).toNat else 0

/-- The byte-wise form of the extraction (R70): a 24-bit window of three bytes, shifted and cut to 11 bits. -/
def groupByWindow (comb : Comb) (k : Nat) : Nat :=
  let a := 11 * k / 8
  let o := 11 * k % 8
  let w := combByte comb a * 65536 + combByte comb (a + 1) * 256 + combByte comb (a + 2)
  w / 2 ^ (13 - o) % 2048

/-! ## mnemonic_encoder_top's function (spec/43) -/

/-- `ENCODE(ent) = SLICE(BCAT(ent, CSUM(ent)))` for a hash (R149). -/
def encodeWith (hash : Ent → Dig) (ent : Ent) : Indices := slice (bcat ent (csum hash ent))

/-- `CSUM` with the machine's `HASH` (R90). -/
def machineCsum (ent : Ent) : Cs := csum Config.hash ent

/-- `ENCODE` with the machine's `HASH` (R149). -/
def machineEncode (ent : Ent) : Indices := encodeWith Config.hash ent

end Sys2Proof.Machine
end

