-- ==== Sys2Proof/Machine/Flags.lean ====
section
/-! DEFINITION. The outputs of the block (R25): five 1-bit flags and two data words, each a function of the three registers alone
(a Moore machine); and the transfers of the four channels (R45 to R49). -/

namespace Sys2Proof.Machine

/-! ## The seven equations of R25 -/

/-- `in_ready = (state == IDLE)`. -/
def inReady (s : State) : Bool := s.state == .idle

/-- `hreq_valid = (state == REQ)`. -/
def hreqValid (s : State) : Bool := s.state == .req

/-- `hreq_msg = (state == REQ) ? MSG(ent_q) : 0`. -/
def hreqMsg (s : State) : Ent := if s.state = .req then msg s.entQ else 0

/-- `hresp_ready = (state == WAIT)`. -/
def hrespReady (s : State) : Bool := s.state == .wait

/-- `out_valid = (state == DONE)`. -/
def outValid (s : State) : Bool := s.state == .done

/-- `out_idx_flat = (state == DONE) ? FLAT(SLICE(BCAT(ent_q, cs_q))) : 0`. -/
def outIdxFlat (s : State) : Comb := if s.state = .done then flat (slice (bcat s.entQ s.csQ)) else 0

/-- `busy = (state != IDLE)`. -/
def busy (s : State) : Bool := s.state != .idle

/-- The output ports of R60, as one record. -/
structure Outputs where
  /-- `in_ready`. -/
  inReady : Bool
  /-- `hreq_valid`. -/
  hreqValid : Bool
  /-- `hreq_msg[255:0]`. -/
  hreqMsg : Ent
  /-- `hresp_ready`. -/
  hrespReady : Bool
  /-- `out_valid`. -/
  outValid : Bool
  /-- `out_idx_flat[263:0]`. -/
  outIdxFlat : Comb
  /-- `busy`. -/
  busy : Bool
  deriving DecidableEq, Repr

/-- `out(S)` of R156: all outputs of a cycle. -/
def outputs (s : State) : Outputs :=
  { inReady := inReady s, hreqValid := hreqValid s, hreqMsg := hreqMsg s, hrespReady := hrespReady s, outValid := outValid s,
    outIdxFlat := outIdxFlat s, busy := busy s }

/-! ## Transfers (R45): valid and ready both 1 at the edge, and no reset -/

/-- `xfer(in)` (R46). -/
def xferIn (s : State) (i : Inputs) : Bool := i.inValid && inReady s && !i.rst

/-- `xfer(hreq)` (R47). -/
def xferHreq (s : State) (i : Inputs) : Bool := hreqValid s && i.hreqReady && !i.rst

/-- `xfer(hresp)` (R48). -/
def xferHresp (s : State) (i : Inputs) : Bool := i.hrespValid && hrespReady s && !i.rst

/-- `xfer(out)` (R49). -/
def xferOut (s : State) (i : Inputs) : Bool := outValid s && i.outReady && !i.rst

end Sys2Proof.Machine
end

