-- ==== Sys2Proof/Machine/Ops.lean ====
section
/-! DEFINITION. The operations the meanings share: the register writes of the sequencer steps, the engine's and the caller's side
of a transfer, the observation of a datapath result; and what the step does around a meaning: reading the inputs of the edge,
selecting the step, ending the edge. The block has no memory (R40) and takes no exception (R190, R196), so there is no memory
operation and no exception entry; the nearest thing to one is `RESET` (R196), whose whole effect is `resetAll`. -/

namespace Sys2Proof.Machine

/-! ## The block's registers -/

/-- `state <- S`, the only control transfer (R13, R152). -/
def goTo (st : SeqState) (s : State) : State := { s with state := st }

/-- `ent_q <- in_entropy` (R143). -/
def captureEntropy (e : Ent) (s : State) : State := { s with entQ := e }

/-- `cs_q <- TRUNC8(hresp_digest)` (R145). -/
def captureChecksum (d : Dig) (s : State) : State := { s with csQ := trunc8 d }

/-- Zeroise: write all zeros into `ent_q` and `cs_q` (R147). -/
def zeroise (s : State) : State := { s with entQ := 0, csQ := 0 }

/-! ## The agents on the far side of the channels -/

/-- The engine records the request: `hq <- some(hreq_msg)` (R29, R171). -/
def recordRequest (s : State) : State := { s with hq := some (hreqMsg s) }

/-- The engine has no request any more: `hq <- none` (R29, R171, R174). -/
def dropRequest (s : State) : State := { s with hq := none }

/-- The caller takes the value on `out_idx_flat` (R146, R157). -/
def handOver (s : State) : State := { s with taken := s.taken ++ [outIdxFlat s] }

/-! ## Reset -/

/-- The effect of a rising edge with `rst = 1` (R142, R31), with the engine's side of the shared reset (R174, R215). -/
def resetAll (s : State) : State := dropRequest (zeroise (goTo .idle s))

/-! ## Datapath results -/

/-- A datapath operation reads no register and writes none (R14): its result appears on its wires, where an observer sees it
(log entry 4). -/
def observe (p : Probe) (s : State) : State := { s with probe := some p }

/-! ## One edge -/

/-- The inputs of the cycle the coming edge ends: the next line of the stimulus, or, when there is none, what the environment
freely drives (log entry 3). -/
def inputsOf (s : State) : Inputs :=
  match s.stim with
  | i :: _ => i
  | [] => Config.freeInputs s.edge

/-- The state with the given inputs, and no more than these, to come: one edge under inputs of one's choice. -/
def State.drive (i : Inputs) (s : State) : State := { s with stim := [i] }

/-- The control vector of the cycle (R71). -/
def ctl (s : State) : Ctl := ctlOf s.state (inputsOf s)

/-- The step taken at the coming edge, with its operand (R141, R73). -/
def select (s : State) : Instr := decodeCtl (ctl s) (inputsOf s).inEntropy (inputsOf s).hrespDigest

/-- The same as bytes: the control vector and the two data inputs of the cycle (log entry 5). -/
def fetchBytes (s : State) : List Byte := instrBytes (ctl s) (inputsOf s).inEntropy (inputsOf s).hrespDigest

/-- The edge is over: its line of the stimulus is used up. -/
def endEdge (s : State) : State := { s with stim := s.stim.drop 1, edge := s.edge + 1 }

/-- The edge is over, if the step had a next state. -/
def endEdgeOf : Result → Result
  | .next s => .next (endEdge s)
  | .fault f => .fault f
  | .refused r => .refused r

/-! ## Placing an instruction word -/

/-- The inputs an instruction word sets: the handshake and reset bits of its control vector, and its two data words. -/
def inputsOfWord (nbits w : Nat) : Inputs :=
  let c : Ctl := BitVec.ofNat 7 (w % 2 ^ nbits)
  let data := (tableBytes nbits w).drop 1
  { rst := c.getLsbD 6, inValid := c.getLsbD 3, inEntropy := wordOfBytes (data.take 32), hreqReady := c.getLsbD 2,
    hrespValid := c.getLsbD 1, hrespDigest := wordOfBytes (data.drop 32), outReady := c.getLsbD 0 }

/-- The sequencer state an instruction word names: bits 5 and 4 of its control vector. -/
def stateOfWord (nbits w : Nat) : SeqState :=
  SeqState.ofCode ((BitVec.ofNat 7 (w % 2 ^ nbits)).extractLsb' 4 2)

/-- Set the register `state` and the inputs of the coming edge so that the cycle's control vector and data inputs are the
word's: there is no program counter and no fetch (R23), these are what selects a step (R71). -/
def placeWord (nbits w : Nat) (s : State) : State :=
  { s with state := stateOfWord nbits w, stim := inputsOfWord nbits w :: s.stim.drop 1 }

end Sys2Proof.Machine
end

