-- ==== Sys2Proof/Machine/BitConcatenator.lean ====
section
/-! DEFINITION. The operation of `bit_concatenator` (spec/41): `BCAT`. It concatenates any 8 bits it is given (R100). -/

namespace Sys2Proof.Machine

/-- `BCAT` (R100). -/
def execBcat (ent : Ent) (cs : Cs) (s : State) : Result := .next (observe (.comb (bcat ent cs)) s)

end Sys2Proof.Machine
end

