-- ==== Sys2Proof/Machine/EntropyToChecksum.lean ====
section
/-! DEFINITION. The operations of `entropy_to_checksum` (spec/40): `CSUM`, `MSG`, `TRUNC8`. Each gives its result on its wires and
changes no register (R14); none raises anything. -/

namespace Sys2Proof.Machine

/-- `CSUM` (R90), with the machine's `HASH`. -/
def execCsum (ent : Ent) (s : State) : Result := .next (observe (.cs (machineCsum ent)) s)

/-- `MSG` (R91). -/
def execMsg (ent : Ent) (s : State) : Result := .next (observe (.msg (msg ent)) s)

/-- `TRUNC8` (R92). -/
def execTrunc8 (digest : Dig) (s : State) : Result := .next (observe (.cs (trunc8 digest)) s)

end Sys2Proof.Machine
end

