-- ==== Sys2Proof/Machine/Orchestrator.lean ====
section
/-! DEFINITION. The operations of `mnemonic_encoder_top` (spec/43): the datapath operation `ENCODE` and the six sequencer steps. A
step's meaning is its rule's pseudocode, whatever the state it is given; that a step is taken in its own state alone is the
decoder's doing (R73; log entry 9). -/

namespace Sys2Proof.Machine

/-- `ENCODE` (R149), with the machine's `HASH`. -/
def execEncode (ent : Ent) (s : State) : Result := .next (observe (.indices (machineEncode ent)) s)

/-- `RESET` (R142): no transfer happens; a transaction in flight is discarded and its entropy erased. -/
def execReset (s : State) : Result := .next (resetAll s)

/-- `ACCEPT` (R143): `ent_q <- in_entropy; state <- REQ`; `cs_q` keeps its value. -/
def execAccept (inEntropy : Ent) (s : State) : Result := .next (goTo .req (captureEntropy inEntropy s))

/-- `HREQ` (R144): `state <- WAIT`; engine side, `hq <- some(hreq_msg)`. -/
def execHreq (s : State) : Result := .next (goTo .wait (recordRequest s))

/-- `HRESP` (R145): `cs_q <- TRUNC8(hresp_digest); state <- DONE`; engine side, `hq <- none`. The digest is taken as it is. -/
def execHresp (hrespDigest : Dig) (s : State) : Result := .next (goTo .done (dropRequest (captureChecksum hrespDigest s)))

/-- `DELIVER` (R146): the caller takes `out_idx_flat`, and the registers are zeroised; `state <- IDLE`. -/
def execDeliver (s : State) : Result := .next (goTo .idle (zeroise (handOver s)))

/-- `HOLD` in `IDLE` (R148): no register is written. -/
def execHoldIdle (s : State) : Result := .next s

/-- `HOLD` in `REQ` (R148): no register is written. -/
def execHoldReq (s : State) : Result := .next s

/-- `HOLD` in `WAIT` (R148): no register is written. -/
def execHoldWait (s : State) : Result := .next s

/-- `HOLD` in `DONE` (R148): no register is written. -/
def execHoldDone (s : State) : Result := .next s

end Sys2Proof.Machine
end

