-- ==== Sys2Proof/Machine/SliceAndIndex.lean ====
section
/-! DEFINITION. The operations of `slice_and_index` (spec/42): `SLICE`, `SLICE.0` to `SLICE.23`, `FLAT`. Pure wiring: each gives its
result on its wires and changes no register (R14). -/

namespace Sys2Proof.Machine

/-- `SLICE` (R110). -/
def execSlice (comb : Comb) (s : State) : Result := .next (observe (.indices (slice comb)) s)

/-- `SLICE.0` (R115). -/
def execSlice0 (comb : Comb) (s : State) : Result := .next (observe (.index 0 (slice0 comb)) s)

/-- `SLICE.1` (R116). -/
def execSlice1 (comb : Comb) (s : State) : Result := .next (observe (.index 1 (slice1 comb)) s)

/-- `SLICE.2` (R117). -/
def execSlice2 (comb : Comb) (s : State) : Result := .next (observe (.index 2 (slice2 comb)) s)

/-- `SLICE.3` (R118). -/
def execSlice3 (comb : Comb) (s : State) : Result := .next (observe (.index 3 (slice3 comb)) s)

/-- `SLICE.4` (R119). -/
def execSlice4 (comb : Comb) (s : State) : Result := .next (observe (.index 4 (slice4 comb)) s)

/-- `SLICE.5` (R120). -/
def execSlice5 (comb : Comb) (s : State) : Result := .next (observe (.index 5 (slice5 comb)) s)

/-- `SLICE.6` (R121). -/
def execSlice6 (comb : Comb) (s : State) : Result := .next (observe (.index 6 (slice6 comb)) s)

/-- `SLICE.7` (R122). -/
def execSlice7 (comb : Comb) (s : State) : Result := .next (observe (.index 7 (slice7 comb)) s)

/-- `SLICE.8` (R123). -/
def execSlice8 (comb : Comb) (s : State) : Result := .next (observe (.index 8 (slice8 comb)) s)

/-- `SLICE.9` (R124). -/
def execSlice9 (comb : Comb) (s : State) : Result := .next (observe (.index 9 (slice9 comb)) s)

/-- `SLICE.10` (R125). -/
def execSlice10 (comb : Comb) (s : State) : Result := .next (observe (.index 10 (slice10 comb)) s)

/-- `SLICE.11` (R126). -/
def execSlice11 (comb : Comb) (s : State) : Result := .next (observe (.index 11 (slice11 comb)) s)

/-- `SLICE.12` (R127). -/
def execSlice12 (comb : Comb) (s : State) : Result := .next (observe (.index 12 (slice12 comb)) s)

/-- `SLICE.13` (R128). -/
def execSlice13 (comb : Comb) (s : State) : Result := .next (observe (.index 13 (slice13 comb)) s)

/-- `SLICE.14` (R129). -/
def execSlice14 (comb : Comb) (s : State) : Result := .next (observe (.index 14 (slice14 comb)) s)

/-- `SLICE.15` (R130). -/
def execSlice15 (comb : Comb) (s : State) : Result := .next (observe (.index 15 (slice15 comb)) s)

/-- `SLICE.16` (R131). -/
def execSlice16 (comb : Comb) (s : State) : Result := .next (observe (.index 16 (slice16 comb)) s)

/-- `SLICE.17` (R132). -/
def execSlice17 (comb : Comb) (s : State) : Result := .next (observe (.index 17 (slice17 comb)) s)

/-- `SLICE.18` (R133). -/
def execSlice18 (comb : Comb) (s : State) : Result := .next (observe (.index 18 (slice18 comb)) s)

/-- `SLICE.19` (R134). -/
def execSlice19 (comb : Comb) (s : State) : Result := .next (observe (.index 19 (slice19 comb)) s)

/-- `SLICE.20` (R135). -/
def execSlice20 (comb : Comb) (s : State) : Result := .next (observe (.index 20 (slice20 comb)) s)

/-- `SLICE.21` (R136). -/
def execSlice21 (comb : Comb) (s : State) : Result := .next (observe (.index 21 (slice21 comb)) s)

/-- `SLICE.22` (R137). -/
def execSlice22 (comb : Comb) (s : State) : Result := .next (observe (.index 22 (slice22 comb)) s)

/-- `SLICE.23` (R138). -/
def execSlice23 (comb : Comb) (s : State) : Result := .next (observe (.index 23 (slice23 comb)) s)

/-- `FLAT` (R112). -/
def execFlat (idx : Indices) (s : State) : Result := .next (observe (.bus (flat idx)) s)

end Sys2Proof.Machine
end

