-- ==== Sys2Proof/Machine/Dispatch.lean ====
section
/-! DEFINITION. exec: one arm per operation, each a direct call of its meaning. -/

namespace Sys2Proof.Machine

def exec (i : Instr) (s : State) : Host.Outcome State Fault Refusal :=
  match i with
  | .csum ent => Sys2Proof.Machine.execCsum ent s
  | .msg ent => Sys2Proof.Machine.execMsg ent s
  | .trunc8 digest => Sys2Proof.Machine.execTrunc8 digest s
  | .bcat ent cs => Sys2Proof.Machine.execBcat ent cs s
  | .slice comb => Sys2Proof.Machine.execSlice comb s
  | .slice0 comb => Sys2Proof.Machine.execSlice0 comb s
  | .slice1 comb => Sys2Proof.Machine.execSlice1 comb s
  | .slice2 comb => Sys2Proof.Machine.execSlice2 comb s
  | .slice3 comb => Sys2Proof.Machine.execSlice3 comb s
  | .slice4 comb => Sys2Proof.Machine.execSlice4 comb s
  | .slice5 comb => Sys2Proof.Machine.execSlice5 comb s
  | .slice6 comb => Sys2Proof.Machine.execSlice6 comb s
  | .slice7 comb => Sys2Proof.Machine.execSlice7 comb s
  | .slice8 comb => Sys2Proof.Machine.execSlice8 comb s
  | .slice9 comb => Sys2Proof.Machine.execSlice9 comb s
  | .slice10 comb => Sys2Proof.Machine.execSlice10 comb s
  | .slice11 comb => Sys2Proof.Machine.execSlice11 comb s
  | .slice12 comb => Sys2Proof.Machine.execSlice12 comb s
  | .slice13 comb => Sys2Proof.Machine.execSlice13 comb s
  | .slice14 comb => Sys2Proof.Machine.execSlice14 comb s
  | .slice15 comb => Sys2Proof.Machine.execSlice15 comb s
  | .slice16 comb => Sys2Proof.Machine.execSlice16 comb s
  | .slice17 comb => Sys2Proof.Machine.execSlice17 comb s
  | .slice18 comb => Sys2Proof.Machine.execSlice18 comb s
  | .slice19 comb => Sys2Proof.Machine.execSlice19 comb s
  | .slice20 comb => Sys2Proof.Machine.execSlice20 comb s
  | .slice21 comb => Sys2Proof.Machine.execSlice21 comb s
  | .slice22 comb => Sys2Proof.Machine.execSlice22 comb s
  | .slice23 comb => Sys2Proof.Machine.execSlice23 comb s
  | .flat idx => Sys2Proof.Machine.execFlat idx s
  | .encode ent => Sys2Proof.Machine.execEncode ent s
  | .reset => Sys2Proof.Machine.execReset s
  | .accept inEntropy => Sys2Proof.Machine.execAccept inEntropy s
  | .hreq => Sys2Proof.Machine.execHreq s
  | .hresp hrespDigest => Sys2Proof.Machine.execHresp hrespDigest s
  | .deliver => Sys2Proof.Machine.execDeliver s
  | .holdIdle => Sys2Proof.Machine.execHoldIdle s
  | .holdReq => Sys2Proof.Machine.execHoldReq s
  | .holdWait => Sys2Proof.Machine.execHoldWait s
  | .holdDone => Sys2Proof.Machine.execHoldDone s

end Sys2Proof.Machine
end

