-- ==== Sys2Proof/Machine/Step.lean ====
section
/-! DEFINITION. One step of the machine is one rising edge of `clk` (R141): the step the control vector selects is executed, and
the edge's line of the stimulus is used up. -/

namespace Sys2Proof.Machine

/-- One rising edge of `clk` (R141, R156). -/
def step (s : State) : Host.Outcome State Fault Refusal := endEdgeOf (exec (select s) s)

/-- The state in which the coming edge takes the step an instruction word selects: the register `state` and the inputs of the
edge are the word's (log entry 3). -/
def State.withFetchWord (s : State) (nbits w : Nat) : State := placeWord nbits w s

end Sys2Proof.Machine
end

