-- ==== Sys2Proof/Machine/Resolve.lean ====
section
/-! DEFINITION. The caller's lookup of words (R41, R42). The block has no Dictionary (R5): it is the caller's, external and
read-only, so it is an argument here. An 11-bit index has exactly the 2048 values the Dictionary has entries, so a lookup is
never out of range (R42, R113). -/

namespace Sys2Proof.Machine

/-- A Dictionary: "a fixed, externally supplied ordered list of exactly 2048 distinct words, addressed by index", index 0 first (R41).
One that breaks the contract is the caller's fatal misconfiguration (R192, U6), and has no term here. -/
structure Dictionary where
  /-- The words in their order. -/
  words : Vector String 2048
  /-- No word stands twice. -/
  distinct : words.toList.Nodup
  deriving DecidableEq

/-- `DictRead(i)`: the `i`-th entry (R42). -/
def dictRead (dict : Dictionary) (i : Idx) : String := dict.words[i.toNat]'i.isLt

/-- `resolve(mnemonic)`: `word[k] = DictRead(uint(idx[k]))` for `k` from 0 to 23 (R42). -/
def resolve (dict : Dictionary) (idx : Indices) : List String := idx.toList.map (dictRead dict)

/-- The index and word pairs of spec/95_test_vectors.md section 1.3 that hold for every `HASH`, "which a model's Dictionary
parameter must satisfy". -/
def knownWords : List (Idx × String) :=
  [(0, "abandon"), (8, "absurd"), (16, "acoustic"), (32, "advice"), (64, "amount"), (128, "avoid"), (204, "book"),
   (257, "cage"), (292, "cause"), (463, "delay"), (487, "diagram"), (497, "dilemma"), (514, "doctor"), (547, "dutch"),
   (663, "fancy"), (806, "gospel"), (837, "hamster"), (839, "happy"), (923, "inflict"), (1019, "legal")]
  ++ [(1028, "letter"), (1048, "loan"), (1084, "maple"), (1104, "meat"), (1369, "private"), (1429, "razor"),
   (1533, "sausage"), (1594, "shrug"), (1628, "slide"), (1785, "tennis"), (1790, "thank"), (1819, "toddler"),
   (1919, "useful"), (1983, "wave"), (2015, "winner"), (2027, "word"), (2031, "worth"), (2039, "year"), (2047, "zoo")]

/-- The five pairs that hold under the SHA-256 instance (spec/95_test_vectors.md section 1.3, marked H). -/
def knownLastWords : List (Idx × String) :=
  [(102, "art"), (189, "bless"), (1024, "length"), (1815, "title"), (1967, "vote")]

/-- The Dictionary has the 44 entries the source's vectors force. -/
def knowsVectors (dict : Dictionary) : Prop := ∀ p ∈ knownWords ++ knownLastWords, dictRead dict p.1 = p.2

end Sys2Proof.Machine
end

