-- ==== Sys2Proof/Machine/Sha256.lean ====
section
/-! DEFINITION. The instance of `HASH` the hardware is built with: SHA-256 of a 32-byte message (R175 to R180, from general
knowledge, not in the source: G1). It stands beside the open parameter `Config.hash` and nothing of the step uses it (log
entry 2). -/

namespace Sys2Proof.Machine

/-- A 32-bit word; `+` is addition modulo 2^32 (R177). -/
abbrev Word32 := BitVec 32

/-- The padded block: the 32 message bytes, `0x80`, 23 zero bytes, and the length in bits, 256, as a 64-bit integer (R176). -/
def shaBlock (m : Ent) : BitVec 512 := m ++ (0x80 : BitVec 8) ++ (0 : BitVec 184) ++ (256 : BitVec 64)

/-- `Ch(x, y, z)` (R177). -/
def shaCh (x y z : Word32) : Word32 := (x &&& y) ^^^ (~~~x &&& z)

/-- `Maj(x, y, z)` (R177). -/
def shaMaj (x y z : Word32) : Word32 := (x &&& y) ^^^ (x &&& z) ^^^ (y &&& z)

/-- `BSIG0(x)` (R177). -/
def shaBsig0 (x : Word32) : Word32 := x.rotateRight 2 ^^^ x.rotateRight 13 ^^^ x.rotateRight 22

/-- `BSIG1(x)` (R177). -/
def shaBsig1 (x : Word32) : Word32 := x.rotateRight 6 ^^^ x.rotateRight 11 ^^^ x.rotateRight 25

/-- `SSIG0(x)` (R177). -/
def shaSsig0 (x : Word32) : Word32 := x.rotateRight 7 ^^^ x.rotateRight 18 ^^^ (x >>> 3)

/-- `SSIG1(x)` (R177). -/
def shaSsig1 (x : Word32) : Word32 := x.rotateRight 17 ^^^ x.rotateRight 19 ^^^ (x >>> 10)

/-- The eight working variables `a` to `h`, and the hash value's eight words (R179). -/
structure ShaWork where
  /-- `a`, `H[0]`. -/
  a : Word32
  /-- `b`, `H[1]`. -/
  b : Word32
  /-- `c`, `H[2]`. -/
  c : Word32
  /-- `d`, `H[3]`. -/
  d : Word32
  /-- `e`, `H[4]`. -/
  e : Word32
  /-- `f`, `H[5]`. -/
  f : Word32
  /-- `g`, `H[6]`. -/
  g : Word32
  /-- `h`, `H[7]`. -/
  h : Word32
  deriving DecidableEq, Repr

/-- `H0[0..7]` (R178). -/
def shaH0 : ShaWork :=
  ⟨0x6a09e667, 0xbb67ae85, 0x3c6ef372, 0xa54ff53a, 0x510e527f, 0x9b05688c, 0x1f83d9ab, 0x5be0cd19⟩

/-- `K[0..63]` (R178). -/
def shaK : List Word32 :=
  [0x428a2f98, 0x71374491, 0xb5c0fbcf, 0xe9b5dba5, 0x3956c25b, 0x59f111f1, 0x923f82a4, 0xab1c5ed5]
  ++ [0xd807aa98, 0x12835b01, 0x243185be, 0x550c7dc3, 0x72be5d74, 0x80deb1fe, 0x9bdc06a7, 0xc19bf174]
  ++ [0xe49b69c1, 0xefbe4786, 0x0fc19dc6, 0x240ca1cc, 0x2de92c6f, 0x4a7484aa, 0x5cb0a9dc, 0x76f988da]
  ++ [0x983e5152, 0xa831c66d, 0xb00327c8, 0xbf597fc7, 0xc6e00bf3, 0xd5a79147, 0x06ca6351, 0x14292967]
  ++ [0x27b70a85, 0x2e1b2138, 0x4d2c6dfc, 0x53380d13, 0x650a7354, 0x766a0abb, 0x81c2c92e, 0x92722c85]
  ++ [0xa2bfe8a1, 0xa81a664b, 0xc24b8b70, 0xc76c51a3, 0xd192e819, 0xd6990624, 0xf40e3585, 0x106aa070]
  ++ [0x19a4c116, 0x1e376c08, 0x2748774c, 0x34b0bcb5, 0x391c0cb3, 0x4ed8aa4a, 0x5b9cca4f, 0x682e6ff3]
  ++ [0x748f82ee, 0x78a5636f, 0x84c87814, 0x8cc70208, 0x90befffa, 0xa4506ceb, 0xbef9a3f7, 0xc67178f2]

/-- The first 16 words of the schedule: the big-endian words of the block (R177, R179). -/
def shaFirst (m : Ent) : List Word32 := (List.range 16).map fun t => (shaBlock m).extractLsb' (480 - 32 * t) 32

/-- The word that follows the words so far: `SSIG1(W[t-2]) + W[t-7] + SSIG0(W[t-15]) + W[t-16]` with `t` their number (R179). -/
def shaNext (ws : List Word32) : Word32 :=
  let t := ws.length
  shaSsig1 (ws.getD (t - 2) 0) + ws.getD (t - 7) 0 + shaSsig0 (ws.getD (t - 15) 0) + ws.getD (t - 16) 0

/-- The schedule extended by some words (R179). -/
def shaExtend : Nat → List Word32 → List Word32
  | 0, ws => ws
  | n + 1, ws => shaExtend n (ws ++ [shaNext ws])

/-- The message schedule `W[0..63]` (R179). -/
def shaSchedule (m : Ent) : List Word32 := shaExtend 48 (shaFirst m)

/-- One round, with its round constant and schedule word (R179). -/
def shaRound (v : ShaWork) (kw : Word32 × Word32) : ShaWork :=
  let t1 := v.h + shaBsig1 v.e + shaCh v.e v.f v.g + kw.1 + kw.2
  let t2 := shaBsig0 v.a + shaMaj v.a v.b v.c
  ⟨t1 + t2, v.a, v.b, v.c, v.d + t1, v.e, v.f, v.g⟩

/-- The working variables after the first `n` rounds (R179). -/
def shaRounds (m : Ent) (n : Nat) : ShaWork := ((shaK.zip (shaSchedule m)).take n).foldl shaRound shaH0

/-- The hash value `H[0..7]` (R179). -/
def shaHash (m : Ent) : ShaWork :=
  let v := shaRounds m 64
  ⟨shaH0.a + v.a, shaH0.b + v.b, shaH0.c + v.c, shaH0.d + v.d, shaH0.e + v.e, shaH0.f + v.f, shaH0.g + v.g, shaH0.h + v.h⟩

/-- The digest as a 256-bit vector: `digest[255:224] = H[0]`, …, `digest[31:0] = H[7]` (R179). -/
def sha256 (m : Ent) : Dig :=
  let v := shaHash m
  v.a ++ v.b ++ v.c ++ v.d ++ v.e ++ v.f ++ v.g ++ v.h

end Sys2Proof.Machine
end

