-- ==== Sys2Proof/Machine/Trace.lean ====
section
/-! DEFINITION. Stimulus programs (R77, R78): what inputs a line sets, what a pseudo-line expands to, and the run of a program, one
line per rising edge. -/

namespace Sys2Proof.Machine

/-- The inputs of a line that names nothing: "inputs not named are 0; data inputs not named are all zeros" (R77). -/
def noInputs : Inputs :=
  { rst := false, inValid := false, inEntropy := 0, hreqReady := false, hrespValid := false, hrespDigest := 0, outReady := false }

/-- The union of two lines' inputs: the bitwise OR (R77); of the data words at most one is named (log entry 10). -/
def unionInputs (a b : Inputs) : Inputs :=
  { rst := a.rst || b.rst, inValid := a.inValid || b.inValid, inEntropy := a.inEntropy ||| b.inEntropy,
    hreqReady := a.hreqReady || b.hreqReady, hrespValid := a.hrespValid || b.hrespValid,
    hrespDigest := a.hrespDigest ||| b.hrespDigest, outReady := a.outReady || b.outReady }

/-- The 256-bit value of a hexadecimal operand: byte 0 first, high nibble first (R12). An operand that has not 64 digits has no
value: it is rejected, never padded or truncated (R76, R191; that a trace line is so rejected is DEDUCED, log entry 10). -/
def hexValue (h : Hex) : Option (BitVec 256) :=
  if h.wellFormed then some (BitVec.ofNat 256 (h.foldl (fun acc d => 16 * acc + d.val) 0)) else none

/-- The 64 hexadecimal digits of a 256-bit value (R12). -/
def hexOf (x : BitVec 256) : Hex := (List.range 64).map fun j => Fin.ofNat 16 ((x.extractLsb' (252 - 4 * j) 4).toNat)

/-- The inputs a line sets (R77), where `last` is the message taken at the last `xfer(hreq)`, which `HRSP HASH` answers (R78). A line
that is not well formed sets none, and neither does `HRSP HASH` before any request was taken (log entry 10). -/
def lineInputs (last : Option Ent) : Line → Option Inputs
  | .nop => some noInputs
  | .rst => some { noInputs with rst := true }
  | .put h => (hexValue h).map fun e => { noInputs with inValid := true, inEntropy := e }
  | .hgo => some { noInputs with hreqReady := true }
  | .hrsp h => (hexValue h).map fun d => { noInputs with hrespValid := true, hrespDigest := d }
  | .hrspHash => last.map fun m => { noInputs with hrespValid := true, hrespDigest := Config.hash m }
  | .get => some { noInputs with outReady := true }
  | .plus a b =>
    if (a.namesEntropy && b.namesEntropy) || (a.namesDigest && b.namesDigest) then none
    else
      match lineInputs last a, lineInputs last b with
      | some i, some j => some (unionInputs i j)
      | _, _ => none

/-- The message taken at the last `xfer(hreq)`, after one more edge (R78). `HRESP` and `RESET` leave it: they clear the engine's
pending request `hq`, which is another thing (R29). -/
def lastRequest (last : Option Ent) (s : State) (i : Inputs) : Option Ent :=
  if xferHreq s i then some (hreqMsg s) else last

/-- What a line of a program stands for (R78); nothing where its operand has not 64 digits. `ENCODE` answers with the machine's
`HASH` of its own operand. -/
def expandPseudo : Pseudo → Option (List Line)
  | .line l => some [l]
  | .encode h => (hexValue h).map fun e => [.put h, .hgo, .hrsp (hexOf (Config.hash e)), .get]
  | .wait n => some (List.replicate n .nop)

/-- The lines of a program, one per edge (R78). -/
def expandProgram : List Pseudo → Option (List Line)
  | [] => some []
  | p :: ps =>
    match expandPseudo p, expandProgram ps with
    | some ls, some rest => some (ls ++ rest)
    | _, _ => none

/-- Run lines, one per rising edge of `clk` (R77), `last` being the message taken at the last `xfer(hreq)` before them. `none` where
a line has no inputs. -/
def runLines : List Line → Option Ent → State → Option State
  | [], _, s => some s
  | l :: ls, last, s =>
    match lineInputs last l with
    | none => none
    | some i =>
      match step (s.drive i) with
      | .next t => runLines ls (lastRequest last s i) t
      | .fault _ => none
      | .refused _ => none

/-- Run a program (R77, R78). "The run ends after the last line" (R157). A program with an ill-formed line is rejected whole, before
its first edge (R191: "reject before any computation"). The request taken last before the program is the pending one, if any. -/
def runProgram (p : List Pseudo) (s : State) : Option State :=
  if p.all Pseudo.wellFormed then
    match expandProgram p with
    | some ls => runLines ls s.hq s
    | none => none
  else none

end Sys2Proof.Machine
end

