-- ==== Sys2Proof/Safety.lean ====
section
/-! DEFINITION. The terms in which claims about runs are made: the duties of the hash engine (R171 to R174), the invariant of R33,
runs and the steps they take, the fairness assumptions of R59, and what an observer of handshakes sees (R200). The duties and
the fairness are assumptions of a claim, stated in it (R193); the machine runs on whatever the environment does. -/

namespace Sys2Proof.Machine

/-! ## The hash engine's duties -/

/-- "It never raises `hresp_valid` while `hq == none`" (R171), at the coming edge. -/
def ProtocolDuty (s : State) : Prop := (inputsOf s).hrespValid = true → s.hq ≠ none

/-- The value duty (R172), at the coming edge: the digest offered is `HASH` of the pending message, all 256 bits. -/
def ValueDuty (s : State) : Prop :=
  ∀ m, (inputsOf s).hrespValid = true → s.hq = some m → (inputsOf s).hrespDigest = Config.hash m

/-- The engine keeps its duties at the coming edge. (Its progress duty, R173, is
`ProgressDuty`; its reset duty, R174, is the machine's reset of `hq`.) -/
def EngineDuty (s : State) : Prop := ProtocolDuty s ∧ ValueDuty s

/-! ## The invariant of R33 -/

/-- The part of R33 that holds whatever the engine answers: what `IDLE` and the states before `DONE` hold, and that the engine
holds a request exactly in `WAIT`, namely the entropy of the transaction (R29). -/
def TransportInv (s : State) : Prop :=
  (s.state = .idle → s.entQ = 0 ∧ s.csQ = 0) ∧ (s.state = .req ∨ s.state = .wait → s.csQ = 0) ∧
  (s.state = .wait ↔ s.hq = some s.entQ) ∧ (s.state ≠ .wait → s.hq = none)

/-- R33 whole: with an engine that keeps its duties, in `DONE` the checksum is the entropy's and the bus shows the entropy's
mnemonic. -/
def TransactionInv (s : State) : Prop :=
  TransportInv s ∧ (s.state = .done → s.csQ = machineCsum s.entQ ∧ outIdxFlat s = flat (machineEncode s.entQ))

/-! ## Runs -/

/-- A finite run and the steps it takes, in order, in which every state a step is taken from meets a condition. -/
inductive Run (ok : State → Prop) : State → List Instr → State → Prop where
  /-- The run of no step. -/
  | nil (s : State) : Run ok s [] s
  /-- One step, and a run from where it leads. -/
  | cons {s t u : State} {is : List Instr} (hok : ok s) (hstep : step s = .next t) (rest : Run ok t is u) :
    Run ok s (select s :: is) u

/-- Is the step one of the four `HOLD` patterns? -/
def isHold (i : Instr) : Bool := i = .holdIdle || i = .holdReq || i = .holdWait || i = .holdDone

/-- The entropy a list of steps leaves undelivered: the one accepted last, unless it was delivered or discarded (R54, R219). -/
def pendingAfter (pending : Option Ent) : Instr → Option Ent
  | .accept e => some e
  | .reset | .deliver => none
  | _ => pending

/-- What the caller is owed by one step: at `DELIVER` the encoding of the undelivered entropy, else nothing (R150). -/
def owedAt (pending : Option Ent) : Instr → List Comb
  | .deliver => (pending.map fun e => flat (machineEncode e)).toList
  | _ => []

/-- What the caller is owed by a list of steps, in order (R150). -/
def owed : Option Ent → List Instr → List Comb
  | _, [] => []
  | pending, i :: is => owedAt pending i ++ owed (pendingAfter pending i) is

/-- An infinite run under an environment: at edge `n` the environment drives `env n` (R141). -/
def InfiniteRun (env : Nat → Inputs) (run : Nat → State) : Prop := ∀ n, step ((run n).drive (env n)) = .next (run (n + 1))

/-- The engine's progress duty (R173): it "eventually accepts an offered request (`hreq_ready` is eventually 1 while `hreq_valid` stays
1) and eventually answers a recorded one (`hresp_valid` is eventually 1 while `hq != none`)". A request withdrawn or dropped by a
reset needs no answer. -/
def ProgressDuty (env : Nat → Inputs) (run : Nat → State) : Prop :=
  (∀ n, hreqValid (run n) = true → ∃ m, n ≤ m ∧ ((env m).hreqReady = true ∨ hreqValid (run m) = false)) ∧
  (∀ n, (run n).hq ≠ none → ∃ m, n ≤ m ∧ ((env m).hrespValid = true ∨ (run m).hq = none))

/-- The caller's fairness (R59): "while `state == DONE`, `out_ready` is eventually 1". -/
def CallerDrains (env : Nat → Inputs) (run : Nat → State) : Prop :=
  ∀ n, (run n).state = .done → ∃ m, n ≤ m ∧ ((env m).outReady = true ∨ (run m).state ≠ .done)

/-- The three fairness assumptions of R59, each "while" the state lasts: an edge that leaves the state, such as a reset, ends it. -/
def Fair (env : Nat → Inputs) (run : Nat → State) : Prop :=
  (∀ n, (run n).state = .req → ∃ m, n ≤ m ∧ ((env m).hreqReady = true ∨ (run m).state ≠ .req)) ∧
  (∀ n, (run n).state = .wait → ∃ m, n ≤ m ∧ ((env m).hrespValid = true ∨ (run m).state ≠ .wait)) ∧
  CallerDrains env run

/-! ## What does not depend on data (R200) -/

/-- The reset and handshake inputs of an edge: everything but the two data words (R71). -/
def handshakes (i : Inputs) : BitVec 5 := lineCode i

/-- The five flags (R25). -/
def flags (s : State) : Bool × Bool × Bool × Bool × Bool :=
  (inReady s, hreqValid s, hrespReady s, outValid s, busy s)

/-! ## The block's registers as one value -/

/-- The block's three registers (R20). -/
structure Regs where
  /-- `state`. -/
  state : SeqState
  /-- `ent_q`. -/
  entQ : Ent
  /-- `cs_q`. -/
  csQ : Cs
  deriving DecidableEq, Repr

/-- The block's registers in a state of the model. -/
def regs (s : State) : Regs := ⟨s.state, s.entQ, s.csQ⟩

end Sys2Proof.Machine
end

