-- ==== Sys2Proof/Certificates/Slice0/Obligations.lean ====
section
/-! DEFINITION. The statements for the provers: one `def Obligations.<Name> : Prop` each, listed in OBLIGATIONS.json with the rule
of spec/ each one formalises. Where a statement gives a whole next state, the fields it does not name are unchanged: that is its
frame. The block has no memory (R40), so no frame speaks of one. `endEdge` is the end of an edge: it uses up the edge's line of
the stimulus and counts the edge, and touches nothing else (`Obligations.EndEdgeTouchesNoRegister`). -/

open Sys2Proof Sys2Proof.Machine

/-! ## Concrete words the rules use in their examples -/

/-- The entropy of the source's fifth vector (spec/95_test_vectors.md section 1.1). -/
def Sys2Proof.entropyV5 : Ent := 0x68a79eaca2324873eacc50cb9c6eca8cc68ea5d936f98787c60c7ebc74e6ce7c

/-- The entropy of the source's second vector: thirty-two bytes `0x7f`. -/
def Sys2Proof.entropyV2 : Ent := 0x7f7f7f7f7f7f7f7f7f7f7f7f7f7f7f7f7f7f7f7f7f7f7f7f7f7f7f7f7f7f7f7f

/-- The entropy of the source's third vector: thirty-two bytes `0x80`. -/
def Sys2Proof.entropyV3 : Ent := 0x8080808080808080808080808080808080808080808080808080808080808080

/-- The entropy of the source's fourth vector: thirty-two bytes `0xff`. -/
def Sys2Proof.entropyV4 : Ent := 0xffffffffffffffffffffffffffffffffffffffffffffffffffffffffffffffff

/-! ## Datapath operations -/

/-- R14: each of the 31 datapath operations, `CSUM` to `ENCODE`, completes from every state; its result is a function of its
operands alone (and of `HASH`), since one value `p` serves every state; and it writes no register. The field `probe`, where the
model shows the result, is the model's own (log entry 4). -/
def Obligations.DatapathIsPure : Prop :=
  ∀ i : Instr, i.kind = .datapath → ∃ p : Probe, ∀ s : State, exec i s = .next { s with probe := some p }

/-- R91: `MSG` gives its operand, byte for byte, from every state; with the rule's example. (`probe`, which shows the result: log
entry 4.) -/
def Obligations.MsgIsTheEntropy : Prop :=
  (∀ ent s, exec (.msg ent) s = .next { s with probe := some (.msg ent) }) ∧ (∀ ent, encode (.msg ent) = none) ∧
  (∀ ent, msg ent = ent ∧ ∀ j < 32, byteAt (msg ent) j = byteAt ent j) ∧
  byteAt (msg entropyV5) 0 = 0x68 ∧ byteAt (msg entropyV5) 31 = 0x7c

/-- R92: `TRUNC8` gives `digest[255:248]` from every state, the first digest bit in `cs[7]`; bits 247 to 0 do not influence it; all
256 results occur; with the rule's example. (`probe`, which shows the result: log entry 4.) -/
def Obligations.Trunc8IsTheFirstByte : Prop :=
  (∀ digest s, exec (.trunc8 digest) s = .next { s with probe := some (.cs (digest.extractLsb' 248 8)) }) ∧
  (∀ digest, encode (.trunc8 digest) = none) ∧
  (∀ digest, trunc8 digest = digest.extractLsb' 248 8 ∧ ∀ b < 8, (trunc8 digest).getLsbD (7 - b) = seqAt digest b) ∧
  (∀ d d' : Dig, (∀ b < 8, seqAt d b = seqAt d' b) → trunc8 d = trunc8 d') ∧
  (∀ v : Cs, ∃ d, trunc8 d = v) ∧
  trunc8 0x17a7384bf1c50a94b712ce507c5ccd58638cd091278078c6e7dc00ae0aa152fc = 0b00010111

/-- R90: `CSUM` gives the first byte of `HASH` of the raw entropy, from every state and for every `HASH`; where the digest of the
all-zero entropy is the one R90's example names, its checksum is `0x66`. (`probe`, which shows the result: log entry 4.) -/
def Obligations.CsumIsTheFirstDigestByte : Prop :=
  (∀ ent s, exec (.csum ent) s = .next { s with probe := some (.cs ((Config.hash ent).extractLsb' 248 8)) }) ∧
  (∀ ent, encode (.csum ent) = none) ∧
  (∀ (hash : Ent → Dig) ent, csum hash ent = trunc8 (hash (msg ent)) ∧ csum hash ent = (hash ent).extractLsb' 248 8) ∧
  (∀ hash : Ent → Dig, hash 0 = 0x66687aadf862bd776c8fc18b8e9f8e20089714856ee233b3902a591d0d5f2925 → csum hash 0 = 0x66)

/-- R100: `BCAT` gives the entropy's bits above the checksum's, from every state and for any 8 bits; position by position and as one
number; with the rule's example. (`probe`, which shows the result: log entry 4.) -/
def Obligations.BcatIsEntropyThenChecksum : Prop :=
  (∀ ent cs s, exec (.bcat ent cs) s = .next { s with probe := some (.comb (bcat ent cs)) }) ∧
  (∀ ent cs, encode (.bcat ent cs) = none) ∧
  (∀ ent cs,
    (∀ i < 256, (bcat ent cs).getLsbD (i + 8) = ent.getLsbD i) ∧ (∀ i < 8, (bcat ent cs).getLsbD i = cs.getLsbD i) ∧
    (∀ p < 256, seqAt (bcat ent cs) p = seqAt ent p) ∧ (∀ b < 8, seqAt (bcat ent cs) (256 + b) = seqAt cs b) ∧
    (bcat ent cs).toNat = 256 * ent.toNat + cs.toNat) ∧
  bcat entropyV2 0x17 = 0x7f7f7f7f7f7f7f7f7f7f7f7f7f7f7f7f7f7f7f7f7f7f7f7f7f7f7f7f7f7f7f7f17

/-- The inference R102 marks as its own: "`BCAT` is injective and has the two exact inverses `comb[263:8]` (the entropy) and
`comb[7:0]` (the checksum)"; and every combined word is one, so that no bit is lost, duplicated or padded. -/
def Obligations.BcatHasExactInverses : Prop :=
  (∀ ent cs, (bcat ent cs).extractLsb' 8 256 = ent ∧ (bcat ent cs).extractLsb' 0 8 = cs) ∧
  (∀ ent cs ent' cs', bcat ent cs = bcat ent' cs' → ent = ent' ∧ cs = cs') ∧
  (∀ comb : Comb, bcat (comb.extractLsb' 8 256) (comb.extractLsb' 0 8) = comb)

/-- R110: `SLICE` gives, from every state, the 24 groups in order: index `k` is `comb[263-11k : 253-11k]`, its bit of weight
`2^(10-b)` is sequence position `11k + b`, and as a number it is `floor(uint(comb) / 2^(253-11k)) mod 2048`; with the rule's
three examples. (`probe`, which shows the result: log entry 4.) -/
def Obligations.SliceCutsConsecutiveGroups : Prop :=
  (∀ comb s, exec (.slice comb) s = .next { s with probe := some (.indices (slice comb)) }) ∧
  (∀ comb, encode (.slice comb) = none) ∧
  (∀ (comb : Comb) (k : Fin 24),
    (slice comb)[k] = comb.extractLsb' (253 - 11 * k.val) 11 ∧
    (∀ b < 11, (slice comb)[k].getLsbD (10 - b) = seqAt comb (11 * k.val + b)) ∧
    (slice comb)[k].toNat = comb.toNat / 2 ^ (253 - 11 * k.val) % 2048) ∧
  slice 0 = Vector.replicate 24 0 ∧ slice (BitVec.allOnes 264) = Vector.replicate 24 2047 ∧
  slice 0x66 = (Vector.replicate 24 0).set 23 102

/-- What R115 to R138 have in common, for the operation `op`, its number, the low bit of its group in the combined word, and the
first byte, the last byte and the bit offset the group lies at: from every state the operation gives those 11 bits, which are
index `k` of `SLICE`, sequence positions `11k` to `11k + 10`; no bits select it; an all-zero group gives 0 and an all-one group
2047. -/
def Sys2Proof.GroupRule (op : Comb → Instr) (k : Fin 24) (lo firstByte lastByte offset : Nat) : Prop :=
  (∀ comb s, exec (op comb) s = .next { s with probe := some (.index k (comb.extractLsb' lo 11)) }) ∧
  (∀ comb, encode (op comb) = none) ∧ (∀ comb, (slice comb)[k] = comb.extractLsb' lo 11) ∧
  (∀ (comb : Comb), ∀ b < 11, (comb.extractLsb' lo 11).getLsbD (10 - b) = seqAt comb (11 * k.val + b)) ∧
  11 * k.val = 8 * firstByte + offset ∧ offset < 8 ∧ (11 * k.val + 10) / 8 = lastByte ∧
  (0 : Comb).extractLsb' lo 11 = (0 : Idx) ∧ (BitVec.allOnes 264).extractLsb' lo 11 = (2047 : Idx)

/-- The group holds entropy bits only, those from `entLo` up, whatever the checksum, so it does not depend on `HASH`; and its value
for the source's fifth vector. -/
def Sys2Proof.EntropyGroup (lo entLo : Nat) (example5 : Idx) : Prop :=
  (∀ ent cs, (bcat ent cs).extractLsb' lo 11 = ent.extractLsb' entLo 11) ∧
  ∀ cs, (bcat entropyV5 cs).extractLsb' lo 11 = example5

/-- R115 to R126: `SLICE.0` to `SLICE.11` each give the 11 bits their rule names. (`probe`, which shows the result: log entry 4.) -/
def Obligations.SliceGroups0To11 : Prop :=
  (GroupRule .slice0 0 253 0 1 0 ∧ EntropyGroup 253 245 837) ∧
  (GroupRule .slice1 1 242 1 2 3 ∧ EntropyGroup 242 234 487) ∧
  (GroupRule .slice2 2 231 2 4 6 ∧ EntropyGroup 231 223 1369) ∧
  (GroupRule .slice3 3 220 4 5 1 ∧ EntropyGroup 220 212 547) ∧
  (GroupRule .slice4 4 209 5 6 4 ∧ EntropyGroup 209 201 292) ∧
  (GroupRule .slice5 5 198 6 8 7 ∧ EntropyGroup 198 190 463) ∧
  (GroupRule .slice6 6 187 8 9 2 ∧ EntropyGroup 187 179 1369) ∧
  (GroupRule .slice7 7 176 9 10 5 ∧ EntropyGroup 176 168 1104) ∧
  (GroupRule .slice8 8 165 11 12 0 ∧ EntropyGroup 165 157 1628) ∧
  (GroupRule .slice9 9 154 12 13 3 ∧ EntropyGroup 154 146 1819) ∧
  (GroupRule .slice10 10 143 13 15 6 ∧ EntropyGroup 143 135 1429) ∧
  (GroupRule .slice11 11 132 15 16 1 ∧ EntropyGroup 132 124 204)

/-- R127 to R138: the same for `SLICE.12` to `SLICE.23`; `SLICE.23` alone holds the checksum, below the last three entropy bits, and
in the fifth vector with the checksum `0x00` it is 1024. (`probe`, which shows the result: log entry 4.) -/
def Obligations.SliceGroups12To23 : Prop :=
  (GroupRule .slice12 12 121 16 17 4 ∧ EntropyGroup 121 113 839) ∧
  (GroupRule .slice13 13 110 17 19 7 ∧ EntropyGroup 110 102 663) ∧
  (GroupRule .slice14 14 99 19 20 2 ∧ EntropyGroup 99 91 806) ∧
  (GroupRule .slice15 15 88 20 21 5 ∧ EntropyGroup 88 80 1785) ∧
  (GroupRule .slice16 16 77 22 23 0 ∧ EntropyGroup 77 69 1084) ∧
  (GroupRule .slice17 17 66 23 24 3 ∧ EntropyGroup 66 58 497) ∧
  (GroupRule .slice18 18 55 24 26 6 ∧ EntropyGroup 55 47 1048) ∧
  (GroupRule .slice19 19 44 26 27 1 ∧ EntropyGroup 44 36 2027) ∧
  (GroupRule .slice20 20 33 27 28 4 ∧ EntropyGroup 33 25 1594) ∧
  (GroupRule .slice21 21 22 28 30 7 ∧ EntropyGroup 22 14 923) ∧
  (GroupRule .slice22 22 11 30 31 2 ∧ EntropyGroup 11 3 463) ∧
  GroupRule .slice23 23 0 31 32 5 ∧
  (∀ ent cs, (bcat ent cs).extractLsb' 0 11 = ent.extractLsb' 0 3 ++ cs ∧
    ((bcat ent cs).extractLsb' 0 11).toNat = 256 * (ent.extractLsb' 0 3).toNat + cs.toNat) ∧
  (bcat entropyV5 0x00).extractLsb' 0 11 = (1024 : Idx)

/-- R112: `FLAT` puts index `k` in bits `263-11k` to `253-11k`, from every state; with the rule's example. (`probe`, which shows the
result: log entry 4.) -/
def Obligations.FlatPlacesTheIndices : Prop :=
  (∀ idx s, exec (.flat idx) s = .next { s with probe := some (.bus (flat idx)) }) ∧ (∀ idx, encode (.flat idx) = none) ∧
  (∀ (idx : Indices) (k : Fin 24), (flat idx).extractLsb' (253 - 11 * k.val) 11 = idx[k]) ∧
  flat ((Vector.replicate 24 0).set 23 102) = 0x66

/-- The inference R112 marks as its own: "`FLAT(SLICE(comb)) == comb` for every `comb`, and `SLICE(FLAT(idx)) == idx` for every
`idx`". -/
def Obligations.FlatAndSliceAreInverse : Prop :=
  (∀ comb, flat (slice comb) = comb) ∧ (∀ idx, slice (flat idx) = idx)

/-- The inference R114 marks as its own, in its last two rows: the 24 indices are the base-2048 digits of the combined word, most
significant first, and the combined word is the entropy times 256 plus the checksum. -/
def Obligations.IndicesAreBase2048Digits : Prop :=
  (∀ comb : Comb, comb.toNat = ∑ k : Fin 24, (slice comb)[k].toNat * 2048 ^ (23 - k.val)) ∧
  (∀ ent cs, ∑ k : Fin 24, (slice (bcat ent cs))[k].toNat * 2048 ^ (23 - k.val) = 256 * ent.toNat + cs.toNat)

/-- The inference R70 marks as its own: the byte-wise form, three bytes as a 24-bit window, gives the same 24 integers as R68. -/
def Obligations.ByteWindowAgrees : Prop :=
  ∀ (comb : Comb) (k : Fin 24), groupByWindow comb k.val = (slice comb)[k].toNat

/-- The inferences R139 marks as its own: every bit of the combined word is in exactly one group, at one place; every index is in
range and there are 24; and `SLICE` is a bijection between combined words and sequences of 24 indices. -/
def Obligations.GroupsCoverEveryBitOnce : Prop :=
  (∀ p < 264, ∃! kb : Fin 24 × Fin 11, 11 * kb.1.val + kb.2.val = p) ∧
  (∀ (comb : Comb) (k : Fin 24) (b : Fin 11), seqAt (slice comb)[k] b.val = seqAt comb (11 * k.val + b.val)) ∧
  (∀ (comb : Comb) (k : Fin 24), (slice comb)[k].toNat ≤ 2047) ∧ (∀ comb, (slice comb).toList.length = 24) ∧
  Function.Bijective slice

/-- R149: `ENCODE` gives `SLICE(BCAT(ent, CSUM(ent)))` from every state; indices 0 to 22 are slices of the entropy and index 23 is
its last three bits and the first digest byte, for every `HASH`; where the checksum of the all-zero entropy is `0x66`, as in the
rule's example, its encoding is twenty-three zeros and 102. (`probe`, which shows the result: log entry 4.) -/
def Obligations.EncodeIsSliceOfBcat : Prop :=
  (∀ ent s, exec (.encode ent) s = .next { s with probe := some (.indices (slice (bcat ent (csum Config.hash ent)))) }) ∧
  (∀ ent, encode (.encode ent) = none) ∧
  (∀ (hash : Ent → Dig) ent, encodeWith hash ent = slice (bcat ent (csum hash ent)) ∧
    (∀ k : Fin 24, k.val ≤ 22 → (encodeWith hash ent)[k] = ent.extractLsb' (245 - 11 * k.val) 11) ∧
    (encodeWith hash ent)[23] = ent.extractLsb' 0 3 ++ (hash ent).extractLsb' 248 8) ∧
  (∀ hash : Ent → Dig, csum hash 0 = 0x66 → encodeWith hash 0 = (Vector.replicate 24 0).set 23 102)

/-- The inferences R151 marks as its own: for every `HASH`, the entropy stands in the first 256 bits of the encoding; so `ENCODE` is
injective; and a sequence of 24 indices is an encoding exactly when its last 8 bits are `CSUM` of its first 256. -/
def Obligations.EncodeIsInjectiveWithExactImage : Prop :=
  ∀ hash : Ent → Dig,
    (∀ ent, (flat (encodeWith hash ent)).extractLsb' 8 256 = ent) ∧
    (∀ e e', encodeWith hash e = encodeWith hash e' → e = e') ∧
    (∀ idx : Indices, (∃ ent, encodeWith hash ent = idx) ↔
      (flat idx).extractLsb' 0 8 = csum hash ((flat idx).extractLsb' 8 256)) ∧
    (∀ ent, ∀ k : Fin 24, (encodeWith hash ent)[k].toNat ≤ 2047)

/-- The inference R69 marks as its own: whatever two hashes are used, the first 23 indices agree and the last one differs at most in
its low 8 bits, which are the whole checksum. -/
def Obligations.HashTouchesLastIndexOnly : Prop :=
  ∀ (hash hash' : Ent → Dig) ent,
    (∀ k : Fin 24, k.val < 23 → (encodeWith hash ent)[k] = (encodeWith hash' ent)[k]) ∧
    (encodeWith hash ent)[23].extractLsb' 8 3 = (encodeWith hash' ent)[23].extractLsb' 8 3 ∧
    (encodeWith hash ent)[23].toNat = 256 * (ent.extractLsb' 0 3).toNat + (csum hash ent).toNat

/-! ## The SHA-256 instance -/

/-- The digests of the source's five entropies under the SHA-256 instance, which R181 marks as general knowledge (log entry 2), and
what follows for the checksum and the encoding of the all-zero entropy and for the checksum of the fifth. -/
def Obligations.ShaDigestsOfKnownEntropies : Prop :=
  sha256 0 = 0x66687aadf862bd776c8fc18b8e9f8e20089714856ee233b3902a591d0d5f2925 ∧
  sha256 entropyV2 = 0x17a7384bf1c50a94b712ce507c5ccd58638cd091278078c6e7dc00ae0aa152fc ∧
  sha256 entropyV3 = 0xbd75a82b9957d6d043076dea52262635042693f1fe23bcadadaecc908e1e5cc6 ∧
  sha256 entropyV4 = 0xaf9613760f72635fbdb44a5a0a63c39f12af30f950a6ee5c971be188e89c4051 ∧
  sha256 entropyV5 = 0x005b30a3ab171b8c3bed01ad5e340de09c0efab48ec02a82bac2081139d18663 ∧
  csum sha256 0 = 0x66 ∧ csum sha256 entropyV5 = 0x00 ∧ encodeWith sha256 0 = (Vector.replicate 24 0).set 23 102

/-- The source's fifth vector, word for word, under every Dictionary that has the 44 entries the source's vectors force. It rests on
the SHA-256 instance, which the spec marks as general knowledge, not in the source (G1; PRESUMED, log entry 2), and so do the
five entries for last words. -/
def Obligations.FifthVectorResolves : Prop :=
  ∀ dict : Dictionary, knowsVectors dict →
    resolve dict (encodeWith sha256 entropyV5) =
      ["hamster", "diagram", "private", "dutch", "cause", "delay", "private", "meat", "slide", "toddler", "razor", "book",
       "happy", "fancy", "gospel", "tennis", "maple", "dilemma", "loan", "word", "shrug", "inflict", "delay", "length"]

/-! ## Outputs -/

/-- R25: the seven equations; every output is a function of the three registers alone, the five flags of `state` alone; and the
flags after reset. -/
def Obligations.OutputsAreMoore : Prop :=
  (∀ s, outputs s =
    { inReady := decide (s.state = .idle)
      hreqValid := decide (s.state = .req)
      hreqMsg := if s.state = .req then msg s.entQ else 0
      hrespReady := decide (s.state = .wait)
      outValid := decide (s.state = .done)
      outIdxFlat := if s.state = .done then flat (slice (bcat s.entQ s.csQ)) else 0
      busy := decide (s.state ≠ .idle) }) ∧
  (∀ s t, regs s = regs t → outputs s = outputs t) ∧ (∀ s t : State, s.state = t.state → flags s = flags t) ∧
  flags State.reset = (true, false, false, false, false)

/-- R45, R195: with reset no channel transfers; without, a channel transfers at an edge exactly when its step is taken, and at most
one does. -/
def Obligations.TransfersAreTheSteps : Prop :=
  ∀ s,
    (xferIn s (inputsOf s) = true ↔ select s = .accept (inputsOf s).inEntropy) ∧
    (xferHreq s (inputsOf s) = true ↔ select s = .hreq) ∧
    (xferHresp s (inputsOf s) = true ↔ select s = .hresp (inputsOf s).hrespDigest) ∧
    (xferOut s (inputsOf s) = true ↔ select s = .deliver) ∧
    ((inputsOf s).rst = true → select s = .reset) ∧
    ((inputsOf s).rst = true → xferIn s (inputsOf s) = false ∧ xferHreq s (inputsOf s) = false ∧
      xferHresp s (inputsOf s) = false ∧ xferOut s (inputsOf s) = false) ∧
    ([xferIn s (inputsOf s), xferHreq s (inputsOf s), xferHresp s (inputsOf s), xferOut s (inputsOf s)].count true ≤ 1)

/-! ## The sequencer steps -/

/-- R142: `RESET` completes from every state and leaves `IDLE` and zeros; no transfer happens, so the caller takes nothing; every
control vector with bit 6 selects it; holding `rst` repeats the step with the same registers; with the rule's example. The
engine's side, `hq = none`, is R29's and R174's (log entry 6). (`endEdge`, the end of the edge: log entry 3.) The clauses on
`exec` at an edge whose inputs would not select `RESET` are the model's choice (DESIGN CHOICE, log entry 9). -/
def Obligations.ResetErases : Prop :=
  (∀ s, exec .reset s = .next { s with state := .idle, entQ := 0, csQ := 0, hq := none }) ∧
  (∀ (c : Ctl) e d, c.getLsbD 6 = true → decodeCtl c e d = .reset) ∧
  (∀ s, (inputsOf s).rst = true →
    step s = .next (endEdge { s with state := .idle, entQ := 0, csQ := 0, hq := none }) ∧
    xferIn s (inputsOf s) = false ∧ xferHreq s (inputsOf s) = false ∧ xferHresp s (inputsOf s) = false ∧
    xferOut s (inputsOf s) = false) ∧
  (∀ s t, exec .reset s = .next t → flags t = (true, false, false, false, false) ∧ exec .reset t = .next t) ∧
  (∀ s t, s.state = .idle → exec .reset s = .next t → outputs t = outputs s) ∧
  outIdxFlat (State.powerOn .done entropyV2 0x17 none)
    = 0x7f7f7f7f7f7f7f7f7f7f7f7f7f7f7f7f7f7f7f7f7f7f7f7f7f7f7f7f7f7f7f7f17 ∧
  (∀ t, exec .reset (State.powerOn .done entropyV2 0x17 none) = .next t → outIdxFlat t = 0)

/-- R31, R32: from every state, so from every one of the register values before the first reset, an edge with `rst = 1` gives the
three registers their reset values and the outputs that follow from them; and `State.reset` has them. That the engine's `hq` is
`none` too is no part of R31 but R29's and R174's, under the shared reset (DEDUCED, log entry 6); that the caller keeps what it
has taken is the model's bookkeeping (log entry 7). -/
def Obligations.ResetReachesResetValues : Prop :=
  (∀ s, (inputsOf s).rst = true → ∃ t, step s = .next t ∧ regs t = ⟨.idle, 0, 0⟩ ∧ t.hq = none ∧ t.taken = s.taken ∧
    outputs t = { inReady := true, hreqValid := false, hreqMsg := 0, hrespReady := false, outValid := false, outIdxFlat := 0,
                  busy := false }) ∧
  regs State.reset = ⟨.idle, 0, 0⟩ ∧ State.reset.hq = none

/-- R143: `ACCEPT` completes from every state and writes `ent_q` and `state`, `cs_q` keeping its value; it is the step of an edge in
`IDLE` with `in_valid` and no reset, whatever the other handshake inputs, and is `xfer(in)`; in any other state neither
`in_valid` nor `in_entropy` matters, and no step changes `ent_q` but to erase it; with the flags after it and the rule's
example. (`endEdge`, the end of the edge: log entry 3.) The clauses on `exec` in a state other than `IDLE`, which never selects
the step, are the model's choice and not R143's (DESIGN CHOICE, log entry 9). -/
def Obligations.AcceptCapturesEntropy : Prop :=
  (∀ e s, exec (.accept e) s = .next { s with entQ := e, state := .req }) ∧
  (∀ s, (inputsOf s).rst = false → s.state = .idle → (inputsOf s).inValid = true →
    step s = .next (endEdge { s with entQ := (inputsOf s).inEntropy, state := .req }) ∧ xferIn s (inputsOf s) = true) ∧
  (∀ e s t, exec (.accept e) s = .next t → flags t = (false, true, false, false, true) ∧ hreqMsg t = e) ∧
  (∀ (s : State) (i : Inputs) v e, s.state ≠ .idle →
    step (s.drive { i with inValid := v, inEntropy := e }) = step (s.drive i)) ∧
  (∀ s t, s.state ≠ .idle → step s = .next t → t.entQ = s.entQ ∨ t.entQ = 0 ∧ (select s = .deliver ∨ select s = .reset)) ∧
  exec (.accept entropyV3) State.reset = .next { State.reset with entQ := entropyV3, state := .req }

/-- R144: `HREQ` completes from every state and goes to `WAIT`, the engine recording `hreq_msg`, which in `REQ` is the entropy; it
is the step of an edge in `REQ` with `hreq_ready` and no reset; a response at the same edge is no transfer; from `WAIT` and
`DONE` no step offers the request again; with the flags after it and the rule's example. (`endEdge`, the end of the edge: log
entry 3.) The clauses on `exec` in a state other than `REQ`, which never selects the step, are the model's choice and not R144's
(DESIGN CHOICE, log entry 9). -/
def Obligations.HreqHandsTheMessageOver : Prop :=
  (∀ s, exec .hreq s = .next { s with state := .wait, hq := some (hreqMsg s) }) ∧
  (∀ s, (inputsOf s).rst = false → s.state = .req → (inputsOf s).hreqReady = true →
    step s = .next (endEdge { s with state := .wait, hq := some s.entQ }) ∧ xferHreq s (inputsOf s) = true ∧
    xferHresp s (inputsOf s) = false) ∧
  (∀ s t, exec .hreq s = .next t → flags t = (false, false, true, false, true) ∧ hreqMsg t = 0) ∧
  (∀ s t, (s.state = .wait ∨ s.state = .done) → step s = .next t → hreqValid t = false) ∧
  exec .hreq (State.powerOn .req entropyV3 0 none) = .next (State.powerOn .wait entropyV3 0 (some entropyV3))

/-- R145: `HRESP` completes from every state and takes the first byte of whatever digest is offered, going to `DONE`; bits 247 to 0
are ignored; it is the step of an edge in `WAIT` with `hresp_valid` and no reset; in any other state neither `hresp_valid` nor
`hresp_digest` matters; the bus then shows the combined word, which is the entropy's encoding exactly when the digest's first
byte is `HASH`'s; with the flags after it and the rule's example. (`endEdge`, the end of the edge: log entry 3.) The clauses on
`exec` in a state other than `WAIT`, which never selects the step, are the model's choice and not R145's (DESIGN CHOICE, log
entry 9). -/
def Obligations.HrespCapturesChecksum : Prop :=
  (∀ d s, exec (.hresp d) s = .next { s with csQ := d.extractLsb' 248 8, state := .done, hq := none }) ∧
  (∀ s, (inputsOf s).rst = false → s.state = .wait → (inputsOf s).hrespValid = true →
    step s = .next (endEdge { s with csQ := (inputsOf s).hrespDigest.extractLsb' 248 8, state := .done, hq := none }) ∧
    xferHresp s (inputsOf s) = true) ∧
  (∀ d d' s, d.extractLsb' 248 8 = d'.extractLsb' 248 8 → exec (.hresp d) s = exec (.hresp d') s) ∧
  (∀ d s t, exec (.hresp d) s = .next t →
    flags t = (false, false, false, true, true) ∧ outIdxFlat t = flat (slice (bcat t.entQ t.csQ))) ∧
  (∀ (s : State) (i : Inputs) v d, s.state ≠ .wait →
    step (s.drive { i with hrespValid := v, hrespDigest := d }) = step (s.drive i)) ∧
  (∀ d s t, exec (.hresp d) s = .next t → (outIdxFlat t = flat (machineEncode s.entQ) ↔ trunc8 d = machineCsum s.entQ)) ∧
  exec (.hresp 0xbd75a82b9957d6d043076dea52262635042693f1fe23bcadadaecc908e1e5cc6)
    (State.powerOn .wait entropyV3 0 (some entropyV3)) = .next (State.powerOn .done entropyV3 0xbd none)

/-- R146: `DELIVER` completes from every state, hands the bus over and erases both registers; it is the step of an edge in `DONE`
with `out_ready` and no reset, even with `in_valid`, which is not accepted; afterwards the bus is zero, so the result is taken
once only; with the flags after it and the rule's example. (`endEdge`, the end of the edge: log entry 3.) (`taken`, what the
caller has taken: log entry 7.) The clauses on `exec` in a state other than `DONE`, which never selects the step, are the
model's choice and not R146's (DESIGN CHOICE, log entry 9). -/
def Obligations.DeliverHandsOverAndErases : Prop :=
  (∀ s, exec .deliver s = .next { s with state := .idle, entQ := 0, csQ := 0, taken := s.taken ++ [outIdxFlat s] }) ∧
  (∀ s, (inputsOf s).rst = false → s.state = .done → (inputsOf s).outReady = true →
    step s = .next (endEdge { s with state := .idle, entQ := 0, csQ := 0,
                                     taken := s.taken ++ [flat (slice (bcat s.entQ s.csQ))] }) ∧
    xferOut s (inputsOf s) = true ∧ xferIn s (inputsOf s) = false) ∧
  (∀ s t, exec .deliver s = .next t → flags t = (true, false, false, false, false) ∧ outIdxFlat t = 0) ∧
  (∀ s, TransactionInv s → s.state = .done → outIdxFlat s = flat (machineEncode s.entQ)) ∧
  outIdxFlat (State.powerOn .done entropyV3 0xbd none)
    = 0x8080808080808080808080808080808080808080808080808080808080808080bd ∧
  (∀ t, exec .deliver (State.powerOn .done entropyV3 0xbd none) = .next t → regs t = ⟨.idle, 0, 0⟩)

/-- R148: each of the four `HOLD` patterns completes from every state and changes nothing; `HOLD` is the step of an edge with no
reset at which the one handshake input the state looks at is 0, whatever the others are; registers and outputs stay; with the
rule's example. (`endEdge`, the end of the edge: log entry 3.) The clauses on `exec` of a pattern in a state that does not
select it are the model's choice and not R148's (DESIGN CHOICE, log entry 9). -/
def Obligations.HoldChangesNothing : Prop :=
  (∀ s, exec .holdIdle s = .next s ∧ exec .holdReq s = .next s ∧ exec .holdWait s = .next s ∧ exec .holdDone s = .next s) ∧
  (∀ s, (inputsOf s).rst = false →
    (match s.state with
      | .idle => (inputsOf s).inValid
      | .req => (inputsOf s).hreqReady
      | .wait => (inputsOf s).hrespValid
      | .done => (inputsOf s).outReady) = false →
    step s = .next (endEdge s) ∧ regs (endEdge s) = regs s ∧ outputs (endEdge s) = outputs s ∧
    select s = (match s.state with
      | .idle => .holdIdle
      | .req => .holdReq
      | .wait => .holdWait
      | .done => .holdDone)) ∧
  (∀ t, step ((State.powerOn .wait entropyV3 0 (some entropyV3)).drive
      { rst := false, inValid := true, inEntropy := BitVec.allOnes 256, hreqReady := true, hrespValid := false,
        hrespDigest := 0, outReady := true }) = .next t → regs t = ⟨.wait, entropyV3, 0⟩)

/-- R156 whole: at every edge the registers become what the rule's `step(S, I)` gives, clause by clause, and the outputs are R25's
seven equations. Around it, and no part of those rules: the engine's `hq` changes with its transfers and at reset as R29 says
(log entry 6), the caller's `taken` with its own (R157; DESIGN CHOICE, log entry 7), the edge's line of the stimulus is used up
and the edge counted (DESIGN CHOICE, log entry 3), and `probe` is kept (DESIGN CHOICE, log entry 4); nothing else changes. -/
def Obligations.StepIsTheStepFunction : Prop :=
  ∀ s, ∃ t, step s = .next t ∧
    regs t =
      (if (inputsOf s).rst = true then ⟨.idle, 0, 0⟩
       else if s.state = .idle ∧ (inputsOf s).inValid = true then ⟨.req, (inputsOf s).inEntropy, s.csQ⟩
       else if s.state = .req ∧ (inputsOf s).hreqReady = true then ⟨.wait, s.entQ, s.csQ⟩
       else if s.state = .wait ∧ (inputsOf s).hrespValid = true then
         ⟨.done, s.entQ, (inputsOf s).hrespDigest.extractLsb' 248 8⟩
       else if s.state = .done ∧ (inputsOf s).outReady = true then ⟨.idle, 0, 0⟩
       else ⟨s.state, s.entQ, s.csQ⟩) ∧
    t.hq =
      (if (inputsOf s).rst = true then none
       else if xferHreq s (inputsOf s) = true then some (hreqMsg s)
       else if xferHresp s (inputsOf s) = true then none
       else s.hq) ∧
    t.taken = (if xferOut s (inputsOf s) = true then s.taken ++ [outIdxFlat s] else s.taken) ∧
    t.stim = s.stim.drop 1 ∧ t.edge = s.edge + 1 ∧ t.probe = s.probe ∧
    outputs t =
      { inReady := decide (t.state = .idle)
        hreqValid := decide (t.state = .req)
        hreqMsg := if t.state = .req then msg t.entQ else 0
        hrespReady := decide (t.state = .wait)
        outValid := decide (t.state = .done)
        outIdxFlat := if t.state = .done then flat (slice (bcat t.entQ t.csQ)) else 0
        busy := decide (t.state ≠ .idle) }

/-- R152: the whole transition relation of `state`, with the step of each row; and no transition looks at data: inputs and states
that differ in data words alone lead to the same `state`. -/
def Obligations.TransitionRelation : Prop :=
  (∀ s t, step s = .next t →
    match (inputsOf s).rst, s.state with
    | true, _ => select s = .reset ∧ t.state = .idle
    | false, .idle =>
      if (inputsOf s).inValid then select s = .accept (inputsOf s).inEntropy ∧ t.state = .req
      else select s = .holdIdle ∧ t.state = .idle
    | false, .req =>
      if (inputsOf s).hreqReady then select s = .hreq ∧ t.state = .wait else select s = .holdReq ∧ t.state = .req
    | false, .wait =>
      if (inputsOf s).hrespValid then select s = .hresp (inputsOf s).hrespDigest ∧ t.state = .done
      else select s = .holdWait ∧ t.state = .wait
    | false, .done =>
      if (inputsOf s).outReady then select s = .deliver ∧ t.state = .idle else select s = .holdDone ∧ t.state = .done) ∧
  (∀ s s' t t', s.state = s'.state → handshakes (inputsOf s) = handshakes (inputsOf s') → step s = .next t →
    step s' = .next t' → t.state = t'.state)

/-- The end of an edge uses up one line of the stimulus, counts the edge and touches no other field (the model's own convention, log
entry 3). -/
def Obligations.EndEdgeTouchesNoRegister : Prop :=
  ∀ s, regs (endEdge s) = regs s ∧ (endEdge s).hq = s.hq ∧ (endEdge s).taken = s.taken ∧ (endEdge s).probe = s.probe ∧
    (endEdge s).stim = s.stim.drop 1 ∧ (endEdge s).edge = s.edge + 1 ∧ outputs (endEdge s) = outputs s

/-- R190, R206: every operation and every step has a next state from every state; there is no fault outcome. -/
def Obligations.EveryOperationCompletes : Prop :=
  (∀ i s, ∃ t, exec i s = .next t) ∧ (∀ s, ∃ t, step s = .next t) ∧ (∀ _ : Fault, False)

/-! ## Decoding and encoding -/

/-- When the control vector and data inputs of the cycle, as bytes, decode to an operation, the edge executes that operation and
then ends; and they always decode, to the selected step (R71, R73; the byte layout is the model's own, log entry 5). (`endEdge`,
the end of the edge: log entry 3.) -/
def Obligations.StepRunsTheDecodedOperation : Prop :=
  (∀ s i, decode (fetchBytes s) = .ok i → step s = endEdgeOf (exec i s)) ∧
  (∀ s t i, decode (fetchBytes s) = .ok i → exec i s = .next t → step s = .next (endEdge t)) ∧
  (∀ s, decode (fetchBytes s) = .ok (select s))

/-- Sample words: the control vectors of vectors 0 to 4, 7, 10, 12, 13 and 14 of spec/95_test_vectors.md section 3.2 decode to the
steps named there. -/
def Obligations.SampleControlVectorsDecode : Prop :=
  ∀ e d, decodeCtl 0b0001000 e d = .accept e ∧ decodeCtl 0b0010100 e d = .hreq ∧ decodeCtl 0b0100010 e d = .hresp d ∧
    decodeCtl 0b0110001 e d = .deliver ∧ decodeCtl 0b1110001 e d = .reset ∧ decodeCtl 0b0000000 e d = .holdIdle ∧
    decodeCtl 0b0011011 e d = .holdReq ∧ decodeCtl 0b0101101 e d = .holdWait ∧ decodeCtl 0b0111110 e d = .holdDone

/-- The inference R74 marks as its own: for each of the 128 control vectors exactly one of the nine rows of R73 selects it, and the
decoder gives the step of that row. -/
def Obligations.DecodeIsTotalAndUnambiguous : Prop :=
  ∀ (c : Ctl) e d, ∃ r ∈ stepRows, r.selects c = true ∧ (∀ r' ∈ stepRows, r'.selects c = true → r' = r) ∧
    (decodeCtl c e d).ctl = some r.matchBits ∧ (decodeCtl c e d).ctlMask = some r.mask

/-- R73, row by row: each step is selected exactly under its mask and match; the four `HOLD` rows too. -/
def Obligations.StepDecodeTable : Prop :=
  ∀ (c : Ctl) e d,
    (decodeCtl c e d = .reset ↔ c &&& 0x40 = 0x40) ∧ (decodeCtl c e d = .accept e ↔ c &&& 0x78 = 0x08) ∧
    (decodeCtl c e d = .hreq ↔ c &&& 0x74 = 0x14) ∧ (decodeCtl c e d = .hresp d ↔ c &&& 0x72 = 0x22) ∧
    (decodeCtl c e d = .deliver ↔ c &&& 0x71 = 0x31) ∧ (decodeCtl c e d = .holdIdle ↔ c &&& 0x78 = 0x00) ∧
    (decodeCtl c e d = .holdReq ↔ c &&& 0x74 = 0x10) ∧ (decodeCtl c e d = .holdWait ↔ c &&& 0x72 = 0x20) ∧
    (decodeCtl c e d = .holdDone ↔ c &&& 0x71 = 0x30)

/-- R71: the control vector of a cycle is `rst`, the state's code and the four handshake inputs, bit for bit, and the step it
selects is found by inserting the state into the line's code (R77). -/
def Obligations.ControlVectorLayout : Prop :=
  ∀ s, (ctl s).getLsbD 6 = (inputsOf s).rst ∧ (ctl s).extractLsb' 4 2 = s.state.code ∧
    (ctl s).getLsbD 3 = (inputsOf s).inValid ∧ (ctl s).getLsbD 2 = (inputsOf s).hreqReady ∧
    (ctl s).getLsbD 1 = (inputsOf s).hrespValid ∧ (ctl s).getLsbD 0 = (inputsOf s).outReady ∧
    ctl s = (lineCode (inputsOf s)).extractLsb' 4 1 ++ s.state.code ++ (lineCode (inputsOf s)).extractLsb' 0 4 ∧
    select s = decodeCtl (ctl s) (inputsOf s).inEntropy (inputsOf s).hrespDigest

/-- R23, R67: the four codes, each naming its state and every 2-bit value a code. -/
def Obligations.StateCodesAreExact : Prop :=
  SeqState.code .idle = 0b00 ∧ SeqState.code .req = 0b01 ∧ SeqState.code .wait = 0b10 ∧ SeqState.code .done = 0b11 ∧
  (∀ st, SeqState.ofCode (SeqState.code st) = st) ∧ (∀ c, SeqState.code (SeqState.ofCode c) = c)

/-- Decode and encode agree: every sequencer step, with every value of its operand, is what its bytes decode to; and the operations
that have bytes are exactly the steps, since no bits select a datapath operation (R72). -/
def Obligations.DecodeOfEncode : Prop :=
  (∀ i bs, encode i = some bs → decode bs = .ok i) ∧ (∀ i : Instr, i.kind = .step ↔ (encode i).isSome = true)

/-- R77's encoding of a line, 517 bits, loses nothing in either direction, and has the code above the entropy above the digest. -/
def Obligations.LineEncodingRoundTrips : Prop :=
  (∀ i, decodeLine (encodeLine i) = i) ∧ (∀ l, encodeLine (decodeLine l) = l) ∧
  (∀ i, (encodeLine i).extractLsb' 512 5 = lineCode i ∧ (encodeLine i).extractLsb' 256 256 = i.inEntropy ∧
    (encodeLine i).extractLsb' 0 256 = i.hrespDigest)

/-- R77: all the inputs each line sets, the rest being 0, and so its code; "data inputs not named are all zeros"; and of a union,
the OR of the codes and the data words of whichever line names one. That two lines naming the same data word make an ill-formed
union is the model's choice (DESIGN CHOICE, log entry 10). -/
def Obligations.LinesSetTheirInputs : Prop :=
  ∀ (last : Option Ent) (x : BitVec 256),
    (lineInputs last .nop = some noInputs ∧ lineCode noInputs = 0b00000 ∧ noInputs.inEntropy = 0 ∧ noInputs.hrespDigest = 0) ∧
    (∃ i, lineInputs last .rst = some i ∧ i = { noInputs with rst := true } ∧ lineCode i = 0b10000) ∧
    (∃ i, lineInputs last (.put (hexOf x)) = some i ∧ i = { noInputs with inValid := true, inEntropy := x } ∧
      lineCode i = 0b01000) ∧
    (∃ i, lineInputs last .hgo = some i ∧ i = { noInputs with hreqReady := true } ∧ lineCode i = 0b00100) ∧
    (∃ i, lineInputs last (.hrsp (hexOf x)) = some i ∧ i = { noInputs with hrespValid := true, hrespDigest := x } ∧
      lineCode i = 0b00010) ∧
    (∃ i, lineInputs last .get = some i ∧ i = { noInputs with outReady := true } ∧ lineCode i = 0b00001) ∧
    (∀ l i, lineInputs last l = some i →
      (l.namesEntropy = false → i.inEntropy = 0) ∧ (l.namesDigest = false → i.hrespDigest = 0)) ∧
    (∀ a b i j, lineInputs last a = some i → lineInputs last b = some j →
      (a.namesEntropy && b.namesEntropy) = false → (a.namesDigest && b.namesDigest) = false →
      ∃ u, lineInputs last (.plus a b) = some u ∧ lineCode u = lineCode i ||| lineCode j ∧
        u.inEntropy = (if a.namesEntropy then i.inEntropy else j.inEntropy) ∧
        u.hrespDigest = (if a.namesDigest then i.hrespDigest else j.hrespDigest)) ∧
    (∀ a b, (a.namesEntropy && b.namesEntropy) = true ∨ (a.namesDigest && b.namesDigest) = true →
      lineInputs last (.plus a b) = none)

/-- The word the host places runs: with any of the 128 control vectors placed, the next step is the one the decoder reads from the
word (the model's own convention, log entry 3). -/
def Obligations.PlacedWordRuns : Prop :=
  ∀ (s : State) (w : Nat), w < 128 →
    decodeTableWord 8 w = some (select (s.withFetchWord 8 w)) ∧
    step (s.withFetchWord 8 w) = endEdgeOf (exec (select (s.withFetchWord 8 w)) (s.withFetchWord 8 w))

/-! ## Invariants -/

/-- `State.reset`, and every state with its registers and no pending request, meets R33. -/
def Obligations.ResetMeetsTheInvariant : Prop :=
  TransactionInv State.reset ∧ ∀ s, regs s = regs State.reset → s.hq = none → TransactionInv s

/-- The part of R33 that needs no duty of the engine is kept by every step, whatever the environment drives. -/
def Obligations.StepKeepsTransportInv : Prop :=
  ∀ s t, TransportInv s → step s = .next t → TransportInv t

/-- R33 is kept by every step at which the engine keeps its duties: from every state that meets it, reached or not. -/
def Obligations.StepKeepsTransactionInv : Prop :=
  ∀ s t, TransactionInv s → EngineDuty s → step s = .next t → TransactionInv t

/-- R33, an inference the spec marks as its own, in its own words: in every state a run from the reset registers reaches, with the
engine keeping its duties, the five lines hold; with R29, the engine holds no request outside `WAIT`. -/
def Obligations.ReachedStatesMeetR33 : Prop :=
  ∀ s₀ s is, regs s₀ = regs State.reset → s₀.hq = none → Run EngineDuty s₀ is s →
    (s.state = .idle → s.entQ = 0 ∧ s.csQ = 0) ∧ (s.state = .req ∨ s.state = .wait → s.csQ = 0) ∧
    (s.state = .done → s.csQ = csum Config.hash s.entQ) ∧
    (s.state = .done → outIdxFlat s = flat (slice (bcat s.entQ (csum Config.hash s.entQ)))) ∧
    (s.state = .wait ↔ s.hq = some s.entQ) ∧ (s.state ≠ .wait → s.hq = none)

/-! ## Whole transactions -/

/-- The first half of R150, a claim the spec marks as derived: from a state that meets R33, a run that accepts `E` and then
delivers, with no other delivery and no reset between and the engine keeping its duties, hands over exactly `FLAT(ENCODE(E))`
and leaves the registers erased. (`taken`, what the caller has taken: log entry 7.) -/
def Obligations.TransactionIsCorrect : Prop :=
  ∀ s u E mid, TransactionInv s → Run EngineDuty s (.accept E :: (mid ++ [.deliver])) u → .reset ∉ mid → .deliver ∉ mid →
    u.taken = s.taken ++ [flat (machineEncode E)] ∧ regs u = ⟨.idle, 0, 0⟩ ∧ u.hq = none

/-- R150, a claim the spec marks as derived, for runs of any length and any number of transactions: from the reset registers, with
the engine keeping its duties, what the caller has taken is what it is owed: one result per `DELIVER`, in order; "Results are
neither invented, duplicated, reordered nor mixed between transactions." (`taken`, what the caller has taken: log entry 7.) -/
def Obligations.ResultsAreExactlyThoseOwed : Prop :=
  ∀ s₀ s is, regs s₀ = regs State.reset → s₀.hq = none → Run EngineDuty s₀ is s →
    s.taken = s₀.taken ++ owed none is ∧ (owed none is).length = is.count .deliver

/-- The order of R54, an inference the spec marks as its own, and R150's last half: whatever the environment drives, from `IDLE`
every `DELIVER` is preceded by an `ACCEPT` with exactly one `HREQ` and one `HRESP` in between, in that order, and nothing else
but `HOLD`. So the channels transfer in the one order, each at a strictly later edge, and one hash is asked for per result. -/
def Obligations.EveryDeliveryHasItsTransaction : Prop :=
  ∀ s₀ s is, s₀.state = .idle → Run (fun _ => True) s₀ (is ++ [.deliver]) s →
    ∃ before E between D, is = before ++ .accept E :: between ∧ between.filter (fun i => !isHold i) = [.hreq, .hresp D]

/-- R78: the pseudo-line `ENCODE` from `IDLE` takes the four steps and delivers the mnemonic; `WAIT n` holds in every state when the
inputs are those of `NOP`; `HRSP HASH` offers the digest of the message taken at the last `xfer(hreq)`, also after an `HRESP` or
a `RESET` has cleared the engine's pending request; and while a request is pending it is that message. (`taken`, what the caller
has taken: log entry 7.) -/
def Obligations.PseudoLinesRun : Prop :=
  (∀ s E, s.state = .idle →
    ∃ u, runProgram [.encode (hexOf E)] s = some u ∧ regs u = ⟨.idle, 0, 0⟩ ∧ u.hq = none ∧
      u.taken = s.taken ++ [flat (machineEncode E)]) ∧
  (∀ E, expandPseudo (.encode (hexOf E)) = some [.put (hexOf E), .hgo, .hrsp (hexOf (Config.hash E)), .get]) ∧
  (∀ s n, ∃ u, runProgram [.wait n] s = some u ∧ regs u = regs s ∧ u.hq = s.hq ∧ u.taken = s.taken ∧ u.edge = s.edge + n) ∧
  (∀ m, lineInputs (some m) .hrspHash = lineInputs (some m) (.hrsp (hexOf (Config.hash m)))) ∧
  (∀ s i t last, (∀ m, s.hq = some m → last = some m) → step (s.drive i) = .next t →
    ∀ m, t.hq = some m → lastRequest last s i = some m) ∧
  (∀ s last i, lastRequest last s i = if xferHreq s i = true then some (hreqMsg s) else last) ∧
  (∀ s, s.state = .req →
    (∃ u, runProgram [.line .hgo, .line .hrspHash, .line .hrspHash] s = some u ∧ u.hq = none ∧
      regs u = ⟨.done, s.entQ, machineCsum s.entQ⟩) ∧
    (∃ u, runProgram [.line .hgo, .line .rst, .line .hrspHash] s = some u ∧ u.hq = none ∧ regs u = ⟨.idle, 0, 0⟩))

/-- R155, an inference the spec marks as its own: under the three fairness assumptions of R59, an entropy accepted at edge `n`, with
no reset at any edge while its transaction is open, is delivered at some later edge `m`, the block being busy until then; the
caller takes the bus, and the block is back in `IDLE` with its registers erased. What happens after the delivery, a reset too,
does not matter. No delivery comes before the third edge after the `ACCEPT`, and the bus is not valid before the third cycle.
(`taken`, what the caller has taken: log entry 7.) -/
def Obligations.FairRunsDeliver : Prop :=
  ∀ env run, InfiniteRun env run → Fair env run →
    ∀ n, (run n).state = .idle → (env n).inValid = true → (env n).rst = false →
      ((∀ r, n < r → (∀ j, n < j → j ≤ r → (run j).state ≠ .idle) → (env r).rst = false) →
        ∃ m, n + 3 ≤ m ∧ (∀ j, n < j → j ≤ m → (run j).state ≠ .idle) ∧ (run m).state = .done ∧ (env m).rst = false ∧
          (env m).outReady = true ∧ (run m).entQ = (env n).inEntropy ∧
          (run (m + 1)).taken = (run m).taken ++ [outIdxFlat (run m)] ∧ regs (run (m + 1)) = ⟨.idle, 0, 0⟩) ∧
      (∀ j, n < j → j < n + 3 → outValid (run j) = false)

/-! ## What does not depend on what -/

/-- The inference R147 marks as its own: "After `DELIVER` or `RESET` no function of the block's state or outputs depends on the
erased entropy": the registers and the outputs are the same whatever they were before. -/
def Obligations.ErasedEntropyLeavesNoTrace : Prop :=
  ∀ s s' t t', (select s = .deliver ∨ select s = .reset) → (select s' = .deliver ∨ select s' = .reset) →
    step s = .next t → step s' = .next t' →
    regs t = regs t' ∧ outputs t = outputs t' ∧ t.entQ = 0 ∧ t.csQ = 0

/-- The inference R200 marks as its own: two runs of the same length whose reset and handshake inputs agree edge by edge, whatever
the data words and the registers other than `state`, show the same `state`, the same flags and as many results. (`taken`, what
the caller has taken: log entry 7.) -/
def Obligations.TimingIgnoresData : Prop :=
  ∀ n s s' t t', s.state = s'.state → s.stim.map handshakes = s'.stim.map handshakes → n ≤ s.stim.length →
    Host.Core.run Sys2Proof.core n s = .next t → Host.Core.run Sys2Proof.core n s' = .next t' →
    t.state = t'.state ∧ flags t = flags t' ∧ t.taken.length + s'.taken.length = t'.taken.length + s.taken.length

/-- R57, R20: the three registers are all the block has. Two runs from equal registers under equal inputs have equal registers and
outputs and hand over the same new results, whatever was asked, taken or observed before. (`taken`, what the caller has taken:
log entry 7.) -/
def Obligations.OnlyTheRegistersMatter : Prop :=
  ∀ n s s' t t', regs s = regs s' → s.stim = s'.stim → s.edge = s'.edge →
    Host.Core.run Sys2Proof.core n s = .next t → Host.Core.run Sys2Proof.core n s' = .next t' →
    regs t = regs t' ∧ outputs t = outputs t' ∧ ∃ new, t.taken = s.taken ++ new ∧ t'.taken = s'.taken ++ new

/-! ## The environment's contracts -/

/-- The engine's progress duty (R173) and the caller's fairness give the three fairness assumptions of R59 on every run that starts
in a state that meets the engine-independent part of R33: `hq` holds a request exactly in `WAIT` (R29). -/
def Obligations.ProgressDutyGivesFairness : Prop :=
  ∀ env run, InfiniteRun env run → TransportInv (run 0) → ProgressDuty env run → CallerDrains env run → Fair env run

/-- R76, R191: text of another length is never padded and never truncated. An operand has a value exactly when it has 64 digits; an
ill-formed line sets no inputs; a program that has one is rejected whole, before its first edge. (The rules speak of the block's
inputs; that a trace line is rejected so is DEDUCED, and that a union naming a data word twice is ill-formed a DESIGN CHOICE, log
entry 10.) -/
def Obligations.IllFormedTextIsRejected : Prop :=
  (∀ h : Hex, (hexValue h).isSome = true ↔ h.length = 64) ∧
  (∀ last l, Line.wellFormed l = false → lineInputs last l = none) ∧
  (∀ h, Hex.wellFormed h = false → expandPseudo (.encode h) = none) ∧
  (∀ p s, (∃ l ∈ p, Pseudo.wellFormed l = false) → runProgram p s = none)

/-- R41, R42: the lookup reads entry `uint(idx[k])` for `k` from 0 to 23, in order; and since the 2048 words are distinct, it loses
nothing: different indices give different words, and different entropies, for every `HASH`, different word sequences. -/
def Obligations.ResolveLosesNothing : Prop :=
  ∀ dict : Dictionary,
    (∀ idx, (resolve dict idx).length = 24) ∧
    (∀ (idx : Indices) (k : Fin 24), (resolve dict idx)[k.val]? = dict.words[idx[k].toNat]?) ∧
    (∀ i j : Idx, dictRead dict i = dictRead dict j → i = j) ∧
    (∀ idx idx' : Indices, resolve dict idx = resolve dict idx' → idx = idx') ∧
    (∀ (hash : Ent → Dig) e e', resolve dict (encodeWith hash e) = resolve dict (encodeWith hash e') → e = e')
end

