-- ==== Sys2Proof/Laws/Datapath.lean ====
section
/-! SUPPORT. The datapath operations bit by bit: one lemma per operation that says which input bit each output bit is, so that a
proof unfolds none of them. -/

namespace Sys2Proof.Machine

/-- `TRUNC8` bit by bit (R92). -/
theorem trunc8_getLsbD (d : Dig) (i : Nat) : (trunc8 d).getLsbD i = (decide (i < 8) && d.getLsbD (248 + i)) :=
  BitVec.getLsbD_extractLsb' 248 8 d i

/-- `TRUNC8` as a slice that starts at bit 248. -/
theorem trunc8_eq (d : Dig) : trunc8 d = d.extractLsb' 248 8 := rfl

/-- `BCAT` bit by bit (R100). -/
theorem bcat_getLsbD (ent : Ent) (cs : Cs) (i : Nat) :
    (bcat ent cs).getLsbD i = if i < 8 then cs.getLsbD i else ent.getLsbD (i - 8) :=
  BitVec.getLsbD_append (x := ent) (y := cs) (i := i)

/-- A slice of the combined word above the checksum is a slice of the entropy (R69). -/
theorem extract_bcat_high (ent : Ent) (cs : Cs) (lo w : Nat) (h : 8 ≤ lo) :
    (bcat ent cs).extractLsb' lo w = ent.extractLsb' (lo - 8) w := by
  apply BitVec.eq_of_getLsbD_eq
  intro i _
  rw [BitVec.getLsbD_extractLsb', BitVec.getLsbD_extractLsb', bcat_getLsbD, if_neg (by omega)]
  congr 2
  omega

/-- Index `k` of `SLICE` is group `k` (R110). -/
theorem slice_getElem (c : Comb) (k : Nat) (hk : k < 24) : (slice c)[k] = c.extractLsb' (253 - 11 * k) 11 := by
  simp [slice, group]

theorem append_getLsbD_add_11 {n : Nat} (x : BitVec n) (y : BitVec 11) (i : Nat) :
    (x ++ y).getLsbD (i + 11) = x.getLsbD i := by
  rw [BitVec.getLsbD_append, if_neg (by omega), Nat.add_sub_cancel]

theorem append_getLsbD_low_11 {n : Nat} (x : BitVec n) (y : BitVec 11) (i : Nat) (h : i < 11) :
    (x ++ y).getLsbD i = y.getLsbD i := by
  rw [BitVec.getLsbD_append, if_pos h]

/-- The position of bit `r` of the `q`-th group from the low end. -/
def flatPos (r : Nat) : Nat → Nat
  | 0 => r
  | q + 1 => flatPos r q + 11

theorem flatPos_eq (r q : Nat) : flatPos r q = 11 * q + r := by
  induction q with
  | zero => simp [flatPos]
  | succ n ih => simp [flatPos, ih]; omega

theorem flat_getLsbD_flatPos (idx : Indices) (q : Fin 24) (r : Nat) (hr : r < 11) :
    (flat idx).getLsbD (flatPos r q.val) = (idx[23 - q.val]'(by omega)).getLsbD r := by
  rcases (by omega : q.val = 23 ∨ q.val < 23) with h | h
  · obtain rfl : q = 23 := Fin.ext h
    iterate 23 refine (append_getLsbD_add_11 _ _ _).trans ?_
    rfl
  · obtain ⟨q, hq⟩ := q
    simp only at h
    interval_cases q <;>
      (repeat refine (append_getLsbD_add_11 _ _ _).trans ?_) <;> exact append_getLsbD_low_11 _ _ _ hr

/-- `FLAT` bit by bit (R112): bit `11q + r` is bit `r` of index `23 - q`. -/
theorem flat_getLsbD (idx : Indices) (q r : Nat) (hq : q < 24) (hr : r < 11) :
    (flat idx).getLsbD (11 * q + r) = (idx[23 - q]'(by omega)).getLsbD r := by
  rw [← flatPos_eq]
  exact flat_getLsbD_flatPos idx ⟨q, hq⟩ r hr

/-- `BCAT` as one number (R114). -/
theorem bcat_toNat (ent : Ent) (cs : Cs) : (bcat ent cs).toNat = 256 * ent.toNat + cs.toNat := by
  have hcs := cs.isLt
  refine (BitVec.toNat_append ent cs).trans ?_
  rw [← Nat.shiftLeft_add_eq_or_of_lt hcs, Nat.shiftLeft_eq]
  omega

/-- The last group is the last three entropy bits and the checksum (R69). -/
theorem extract_bcat_low (ent : Ent) (cs : Cs) : (bcat ent cs).extractLsb' 0 11 = ent.extractLsb' 0 3 ++ cs := by
  apply BitVec.eq_of_getLsbD_eq
  intro i hi
  rw [BitVec.getLsbD_extractLsb', bcat_getLsbD, BitVec.getLsbD_append, BitVec.getLsbD_extractLsb', decide_eq_true hi]
  by_cases h : i < 8 <;> simp [h]
  omega

/-- A byte of a combined word as a number (R12). -/
theorem byteAt_toNat (comb : Comb) (j : Nat) : (byteAt comb j).toNat = comb.toNat / 2 ^ (256 - 8 * j) % 256 := by
  simp only [byteAt, BitVec.extractLsb'_toNat, Nat.shiftRight_eq_div_pow]

end Sys2Proof.Machine
end

