-- ==== Sys2Proof/Laws/Encoding.lean ====
section
/-! SUPPORT. The codecs, one lemma for each: 32 bytes and their word, an instruction and its bytes, a trace line's code and its
fields, a hexadecimal string and its value. -/

namespace Sys2Proof

/-- The first `n` bytes of a word, folded back, are its high bits. -/
theorem wordOfBytes_prefix (x : BitVec 256) (n : Nat) (hn : n ≤ 32) :
    wordOfBytes ((List.range n).map (byteAt x)) = x >>> (256 - 8 * n) := by
  rw [wordOfBytes]
  induction n with
  | zero => apply BitVec.eq_of_getLsbD_eq; intro i hi; simp
  | succ n ih =>
    rw [List.range_succ, List.map_append, List.foldl_append, ih (by omega)]
    apply BitVec.eq_of_getLsbD_eq
    intro i hi
    simp only [List.map_cons, List.map_nil, List.foldl_cons, List.foldl_nil, BitVec.getLsbD_or, BitVec.getLsbD_shiftLeft,
      BitVec.getLsbD_ushiftRight, BitVec.getLsbD_setWidth, byteAt, BitVec.getLsbD_extractLsb']
    by_cases h : i < 8
    · simp [h, hi]; congr 1; omega
    · simp [h, hi]; congr 1; omega

/-- A word is the word of its bytes (R12). -/
@[simp] theorem wordOfBytes_wordBytes (x : BitVec 256) : wordOfBytes (wordBytes x) = x := by
  rw [wordBytes, wordOfBytes_prefix x 32 (by omega)]
  simp

@[simp] theorem wordBytes_length (x : BitVec 256) : (wordBytes x).length = 32 := by simp [wordBytes]

/-- The bytes of a control vector with its data words decode to the step it selects. -/
theorem decode_instrBytes (c : Ctl) (e : Ent) (d : Dig) : decode (instrBytes c e d) = .ok (decodeCtl c e d) := by
  simp only [decode, instrBytes]
  rw [if_pos (by simp)]
  have h1 : (c.setWidth 8).msb = false := by rw [BitVec.msb_setWidth]; simp
  have h2 : (c.setWidth 8).setWidth 7 = c := by simp
  rw [h1, h2]
  simp only [Bool.false_eq_true, if_false]
  rw [List.take_left' (wordBytes_length e), List.drop_left' (wordBytes_length e), wordOfBytes_wordBytes, wordOfBytes_wordBytes]

/-- The bits of a line's input code (R77). -/
theorem lineCode_bits (i : Inputs) :
    (lineCode i).getLsbD 0 = i.outReady ∧ (lineCode i).getLsbD 1 = i.hrespValid ∧ (lineCode i).getLsbD 2 = i.hreqReady ∧
      (lineCode i).getLsbD 3 = i.inValid ∧ (lineCode i).getLsbD 4 = i.rst := by
  simp only [lineCode]
  cases i.rst <;> cases i.inValid <;> cases i.hreqReady <;> cases i.hrespValid <;> cases i.outReady <;> decide

/-- The bits of an encoded line (R77). -/
theorem encodeLine_getLsbD (i : Inputs) (j : Nat) :
    (encodeLine i).getLsbD j =
      if j < 256 then i.hrespDigest.getLsbD j
      else if j - 256 < 256 then i.inEntropy.getLsbD (j - 256)
      else (lineCode i).getLsbD (j - 256 - 256) :=
  (BitVec.getLsbD_append (y := i.hrespDigest)).trans (by rw [BitVec.getLsbD_append])

namespace Machine

/-- The first `n` hexadecimal digits of a word, folded back, are its high bits as a number. -/
theorem hexOf_prefix (x : BitVec 256) (n : Nat) (hn : n ≤ 64) :
    ((List.range n).map fun j => Fin.ofNat 16 ((x.extractLsb' (252 - 4 * j) 4).toNat)).foldl (fun acc d => 16 * acc + d.val) 0
      = x.toNat / 2 ^ (256 - 4 * n) := by
  induction n with
  | zero => simp only [List.range_zero, List.map_nil, List.foldl_nil]; exact (Nat.div_eq_of_lt x.isLt).symm
  | succ n ih =>
    rw [List.range_succ, List.map_append, List.foldl_append, ih (by omega)]
    simp only [List.map_cons, List.map_nil, List.foldl_cons, List.foldl_nil, BitVec.extractLsb'_toNat,
      Nat.shiftRight_eq_div_pow, Fin.ofNat]
    rw [show 256 - 4 * n = (252 - 4 * n) + 4 by omega, pow_add, ← Nat.div_div_eq_div_mul,
      show 256 - 4 * (n + 1) = 252 - 4 * n by omega]
    omega

/-- The digits of a word are a well-formed operand (R77). -/
@[simp] theorem hexOf_wellFormed (x : BitVec 256) : (hexOf x).wellFormed = true := by simp [hexOf, Hex.wellFormed]

/-- A word is the value of its hexadecimal digits (R12). -/
@[simp] theorem hexValue_hexOf (x : BitVec 256) : hexValue (hexOf x) = some x := by
  rw [hexValue, if_pos (hexOf_wellFormed x), hexOf, hexOf_prefix x 64 (by omega)]
  simp

/-- An operand has a value exactly when it has 64 digits (R77, R191). -/
theorem hexValue_isSome (h : Hex) : (hexValue h).isSome = h.wellFormed := by
  unfold hexValue
  split <;> simp_all

theorem hexValue_of_not_wellFormed {h : Hex} (hw : h.wellFormed = false) : hexValue h = none := by
  rw [hexValue, if_neg (by simp [hw])]

/-- What a union of two lines sets: neither data word is named twice, and the inputs are the union's (R77). -/
theorem lineInputs_plus {last : Option Ent} {a b : Line} {u : Inputs} (h : lineInputs last (.plus a b) = some u) :
    (a.namesEntropy && b.namesEntropy) = false ∧ (a.namesDigest && b.namesDigest) = false ∧
      ∃ i j, lineInputs last a = some i ∧ lineInputs last b = some j ∧ u = unionInputs i j := by
  rw [lineInputs] at h
  split at h
  · cases h
  · rename_i hn
    simp only [Bool.or_eq_true, not_or, Bool.not_eq_true] at hn
    split at h
    · rename_i i j hi hj
      exact ⟨hn.1, hn.2, i, j, hi, hj, (Option.some.inj h).symm⟩
    · cases h

/-- A line that is not well formed sets no inputs (log entry 10). -/
theorem lineInputs_of_not_wellFormed (last : Option Ent) (l : Line) (hw : l.wellFormed = false) : lineInputs last l = none := by
  induction l with
  | nop | rst | hgo | hrspHash | get => cases hw
  | put h | hrsp h => rw [lineInputs, hexValue_of_not_wellFormed hw]; rfl
  | plus a b iha ihb =>
    cases hu : lineInputs last (.plus a b) with
    | none => rfl
    | some u =>
      obtain ⟨h1, h2, i, j, hi, hj, -⟩ := lineInputs_plus hu
      have ha : a.wellFormed = true := by
        cases ha : a.wellFormed with
        | true => rfl
        | false => rw [iha ha] at hi; cases hi
      have hb : b.wellFormed = true := by
        cases hb : b.wellFormed with
        | true => rfl
        | false => rw [ihb hb] at hj; cases hj
      rw [Line.wellFormed, ha, hb, h1, h2] at hw
      cases hw

/-- "Data inputs not named are all zeros" (R77). -/
theorem lineInputs_unnamed {last : Option Ent} {l : Line} {i : Inputs} (h : lineInputs last l = some i) :
    (l.namesEntropy = false → i.inEntropy = 0) ∧ (l.namesDigest = false → i.hrespDigest = 0) := by
  induction l generalizing i with
  | nop | rst | hgo | get => cases h; exact ⟨fun _ => rfl, fun _ => rfl⟩
  | put hx => obtain ⟨e, -, rfl⟩ := Option.map_eq_some_iff.mp h; exact ⟨fun hn => (nomatch hn), fun _ => rfl⟩
  | hrsp hx => obtain ⟨e, -, rfl⟩ := Option.map_eq_some_iff.mp h; exact ⟨fun _ => rfl, fun hn => (nomatch hn)⟩
  | hrspHash => obtain ⟨e, -, rfl⟩ := Option.map_eq_some_iff.mp h; exact ⟨fun _ => rfl, fun hn => (nomatch hn)⟩
  | plus a b iha ihb =>
    obtain ⟨-, -, x, y, hx, hy, rfl⟩ := lineInputs_plus h
    obtain ⟨a1, a2⟩ := iha hx
    obtain ⟨b1, b2⟩ := ihb hy
    constructor <;> intro hn
    · simp only [Line.namesEntropy, Bool.or_eq_false_iff] at hn
      simp [unionInputs, a1 hn.1, b1 hn.2]
    · simp only [Line.namesDigest, Bool.or_eq_false_iff] at hn
      simp [unionInputs, a2 hn.1, b2 hn.2]

/-- A line that sets inputs, then the lines after it. -/
theorem runLines_cons {l : Line} {ls : List Line} {last : Option Ent} {s t : State} {i : Inputs}
    (hi : lineInputs last l = some i) (hs : step (s.drive i) = .next t) :
    runLines (l :: ls) last s = runLines ls (lastRequest last s i) t := by
  simp only [runLines, hi, hs]

/-- A program with an ill-formed line is rejected (R191). -/
theorem runProgram_of_not_wellFormed {p : List Pseudo} (s : State) (h : p.all Pseudo.wellFormed = false) :
    runProgram p s = none := by
  rw [runProgram, if_neg (by simp [h])]

end Machine

end Sys2Proof
end

