-- ==== Sys2Proof/Laws/PerInstr.lean ====
section
/-! SUPPORT. The per-operation family `ControlVector`: what the syntax says of an operation's selecting bits (R72, R73). -/

namespace Sys2Proof.Laws.ControlVector

/-- A datapath operation has no selecting bits; a step has a match and a mask, the match lies within the mask, and they are a row of
R73's table. -/
def Statement (i : Instr) : Prop :=
  match i.kind with
  | .datapath => i.ctl = none ∧ i.ctlMask = none
  | .step => ∃ r ∈ stepRows, i.ctl = some r.matchBits ∧ i.ctlMask = some r.mask ∧ r.matchBits &&& r.mask = r.matchBits

theorem csum (ent : Ent) : Statement (.csum ent) := ⟨rfl, rfl⟩
theorem msg (ent : Ent) : Statement (.msg ent) := ⟨rfl, rfl⟩
theorem trunc8 (digest : Dig) : Statement (.trunc8 digest) := ⟨rfl, rfl⟩
theorem bcat (ent : Ent) (cs : Cs) : Statement (.bcat ent cs) := ⟨rfl, rfl⟩
theorem slice (comb : Comb) : Statement (.slice comb) := ⟨rfl, rfl⟩
theorem slice0 (comb : Comb) : Statement (.slice0 comb) := ⟨rfl, rfl⟩
theorem slice1 (comb : Comb) : Statement (.slice1 comb) := ⟨rfl, rfl⟩
theorem slice2 (comb : Comb) : Statement (.slice2 comb) := ⟨rfl, rfl⟩
theorem slice3 (comb : Comb) : Statement (.slice3 comb) := ⟨rfl, rfl⟩
theorem slice4 (comb : Comb) : Statement (.slice4 comb) := ⟨rfl, rfl⟩
theorem slice5 (comb : Comb) : Statement (.slice5 comb) := ⟨rfl, rfl⟩
theorem slice6 (comb : Comb) : Statement (.slice6 comb) := ⟨rfl, rfl⟩
theorem slice7 (comb : Comb) : Statement (.slice7 comb) := ⟨rfl, rfl⟩
theorem slice8 (comb : Comb) : Statement (.slice8 comb) := ⟨rfl, rfl⟩
theorem slice9 (comb : Comb) : Statement (.slice9 comb) := ⟨rfl, rfl⟩
theorem slice10 (comb : Comb) : Statement (.slice10 comb) := ⟨rfl, rfl⟩
theorem slice11 (comb : Comb) : Statement (.slice11 comb) := ⟨rfl, rfl⟩
theorem slice12 (comb : Comb) : Statement (.slice12 comb) := ⟨rfl, rfl⟩
theorem slice13 (comb : Comb) : Statement (.slice13 comb) := ⟨rfl, rfl⟩
theorem slice14 (comb : Comb) : Statement (.slice14 comb) := ⟨rfl, rfl⟩
theorem slice15 (comb : Comb) : Statement (.slice15 comb) := ⟨rfl, rfl⟩
theorem slice16 (comb : Comb) : Statement (.slice16 comb) := ⟨rfl, rfl⟩
theorem slice17 (comb : Comb) : Statement (.slice17 comb) := ⟨rfl, rfl⟩
theorem slice18 (comb : Comb) : Statement (.slice18 comb) := ⟨rfl, rfl⟩
theorem slice19 (comb : Comb) : Statement (.slice19 comb) := ⟨rfl, rfl⟩
theorem slice20 (comb : Comb) : Statement (.slice20 comb) := ⟨rfl, rfl⟩
theorem slice21 (comb : Comb) : Statement (.slice21 comb) := ⟨rfl, rfl⟩
theorem slice22 (comb : Comb) : Statement (.slice22 comb) := ⟨rfl, rfl⟩
theorem slice23 (comb : Comb) : Statement (.slice23 comb) := ⟨rfl, rfl⟩
theorem flat (idx : Indices) : Statement (.flat idx) := ⟨rfl, rfl⟩
theorem encode (ent : Ent) : Statement (.encode ent) := ⟨rfl, rfl⟩
theorem reset : Statement .reset := ⟨stepRows[0], by decide, rfl, rfl, by decide⟩
theorem accept (inEntropy : Ent) : Statement (.accept inEntropy) := ⟨stepRows[1], by decide, rfl, rfl, by decide⟩
theorem hreq : Statement .hreq := ⟨stepRows[2], by decide, rfl, rfl, by decide⟩
theorem hresp (hrespDigest : Dig) : Statement (.hresp hrespDigest) := ⟨stepRows[3], by decide, rfl, rfl, by decide⟩
theorem deliver : Statement .deliver := ⟨stepRows[4], by decide, rfl, rfl, by decide⟩
theorem holdIdle : Statement .holdIdle := ⟨stepRows[5], by decide, rfl, rfl, by decide⟩
theorem holdReq : Statement .holdReq := ⟨stepRows[6], by decide, rfl, rfl, by decide⟩
theorem holdWait : Statement .holdWait := ⟨stepRows[7], by decide, rfl, rfl, by decide⟩
theorem holdDone : Statement .holdDone := ⟨stepRows[8], by decide, rfl, rfl, by decide⟩

end Sys2Proof.Laws.ControlVector
end

