-- ==== Sys2Proof/Laws/State.lean ====
section
/-! SUPPORT. One lemma per field per update of the state, true by rfl: a later proof never unfolds a record update. -/

namespace Sys2Proof.Machine

/-! ## goTo -/

@[simp] theorem goTo_state (st : SeqState) (s : State) : (goTo st s).state = st := rfl
@[simp] theorem goTo_entQ (st : SeqState) (s : State) : (goTo st s).entQ = s.entQ := rfl
@[simp] theorem goTo_csQ (st : SeqState) (s : State) : (goTo st s).csQ = s.csQ := rfl
@[simp] theorem goTo_hq (st : SeqState) (s : State) : (goTo st s).hq = s.hq := rfl
@[simp] theorem goTo_stim (st : SeqState) (s : State) : (goTo st s).stim = s.stim := rfl
@[simp] theorem goTo_edge (st : SeqState) (s : State) : (goTo st s).edge = s.edge := rfl
@[simp] theorem goTo_taken (st : SeqState) (s : State) : (goTo st s).taken = s.taken := rfl
@[simp] theorem goTo_probe (st : SeqState) (s : State) : (goTo st s).probe = s.probe := rfl

/-! ## captureEntropy -/

@[simp] theorem captureEntropy_state (e : Ent) (s : State) : (captureEntropy e s).state = s.state := rfl
@[simp] theorem captureEntropy_entQ (e : Ent) (s : State) : (captureEntropy e s).entQ = e := rfl
@[simp] theorem captureEntropy_csQ (e : Ent) (s : State) : (captureEntropy e s).csQ = s.csQ := rfl
@[simp] theorem captureEntropy_hq (e : Ent) (s : State) : (captureEntropy e s).hq = s.hq := rfl
@[simp] theorem captureEntropy_stim (e : Ent) (s : State) : (captureEntropy e s).stim = s.stim := rfl
@[simp] theorem captureEntropy_edge (e : Ent) (s : State) : (captureEntropy e s).edge = s.edge := rfl
@[simp] theorem captureEntropy_taken (e : Ent) (s : State) : (captureEntropy e s).taken = s.taken := rfl
@[simp] theorem captureEntropy_probe (e : Ent) (s : State) : (captureEntropy e s).probe = s.probe := rfl

/-! ## captureChecksum -/

@[simp] theorem captureChecksum_state (d : Dig) (s : State) : (captureChecksum d s).state = s.state := rfl
@[simp] theorem captureChecksum_entQ (d : Dig) (s : State) : (captureChecksum d s).entQ = s.entQ := rfl
@[simp] theorem captureChecksum_csQ (d : Dig) (s : State) : (captureChecksum d s).csQ = trunc8 d := rfl
@[simp] theorem captureChecksum_hq (d : Dig) (s : State) : (captureChecksum d s).hq = s.hq := rfl
@[simp] theorem captureChecksum_stim (d : Dig) (s : State) : (captureChecksum d s).stim = s.stim := rfl
@[simp] theorem captureChecksum_edge (d : Dig) (s : State) : (captureChecksum d s).edge = s.edge := rfl
@[simp] theorem captureChecksum_taken (d : Dig) (s : State) : (captureChecksum d s).taken = s.taken := rfl
@[simp] theorem captureChecksum_probe (d : Dig) (s : State) : (captureChecksum d s).probe = s.probe := rfl

/-! ## zeroise -/

@[simp] theorem zeroise_state (s : State) : (zeroise s).state = s.state := rfl
@[simp] theorem zeroise_entQ (s : State) : (zeroise s).entQ = 0 := rfl
@[simp] theorem zeroise_csQ (s : State) : (zeroise s).csQ = 0 := rfl
@[simp] theorem zeroise_hq (s : State) : (zeroise s).hq = s.hq := rfl
@[simp] theorem zeroise_stim (s : State) : (zeroise s).stim = s.stim := rfl
@[simp] theorem zeroise_edge (s : State) : (zeroise s).edge = s.edge := rfl
@[simp] theorem zeroise_taken (s : State) : (zeroise s).taken = s.taken := rfl
@[simp] theorem zeroise_probe (s : State) : (zeroise s).probe = s.probe := rfl

/-! ## recordRequest -/

@[simp] theorem recordRequest_state (s : State) : (recordRequest s).state = s.state := rfl
@[simp] theorem recordRequest_entQ (s : State) : (recordRequest s).entQ = s.entQ := rfl
@[simp] theorem recordRequest_csQ (s : State) : (recordRequest s).csQ = s.csQ := rfl
@[simp] theorem recordRequest_hq (s : State) : (recordRequest s).hq = some (hreqMsg s) := rfl
@[simp] theorem recordRequest_stim (s : State) : (recordRequest s).stim = s.stim := rfl
@[simp] theorem recordRequest_edge (s : State) : (recordRequest s).edge = s.edge := rfl
@[simp] theorem recordRequest_taken (s : State) : (recordRequest s).taken = s.taken := rfl
@[simp] theorem recordRequest_probe (s : State) : (recordRequest s).probe = s.probe := rfl

/-! ## dropRequest -/

@[simp] theorem dropRequest_state (s : State) : (dropRequest s).state = s.state := rfl
@[simp] theorem dropRequest_entQ (s : State) : (dropRequest s).entQ = s.entQ := rfl
@[simp] theorem dropRequest_csQ (s : State) : (dropRequest s).csQ = s.csQ := rfl
@[simp] theorem dropRequest_hq (s : State) : (dropRequest s).hq = none := rfl
@[simp] theorem dropRequest_stim (s : State) : (dropRequest s).stim = s.stim := rfl
@[simp] theorem dropRequest_edge (s : State) : (dropRequest s).edge = s.edge := rfl
@[simp] theorem dropRequest_taken (s : State) : (dropRequest s).taken = s.taken := rfl
@[simp] theorem dropRequest_probe (s : State) : (dropRequest s).probe = s.probe := rfl

/-! ## handOver -/

@[simp] theorem handOver_state (s : State) : (handOver s).state = s.state := rfl
@[simp] theorem handOver_entQ (s : State) : (handOver s).entQ = s.entQ := rfl
@[simp] theorem handOver_csQ (s : State) : (handOver s).csQ = s.csQ := rfl
@[simp] theorem handOver_hq (s : State) : (handOver s).hq = s.hq := rfl
@[simp] theorem handOver_stim (s : State) : (handOver s).stim = s.stim := rfl
@[simp] theorem handOver_edge (s : State) : (handOver s).edge = s.edge := rfl
@[simp] theorem handOver_taken (s : State) : (handOver s).taken = s.taken ++ [outIdxFlat s] := rfl
@[simp] theorem handOver_probe (s : State) : (handOver s).probe = s.probe := rfl

/-! ## resetAll -/

@[simp] theorem resetAll_state (s : State) : (resetAll s).state = .idle := rfl
@[simp] theorem resetAll_entQ (s : State) : (resetAll s).entQ = 0 := rfl
@[simp] theorem resetAll_csQ (s : State) : (resetAll s).csQ = 0 := rfl
@[simp] theorem resetAll_hq (s : State) : (resetAll s).hq = none := rfl
@[simp] theorem resetAll_stim (s : State) : (resetAll s).stim = s.stim := rfl
@[simp] theorem resetAll_edge (s : State) : (resetAll s).edge = s.edge := rfl
@[simp] theorem resetAll_taken (s : State) : (resetAll s).taken = s.taken := rfl
@[simp] theorem resetAll_probe (s : State) : (resetAll s).probe = s.probe := rfl

/-! ## observe -/

@[simp] theorem observe_state (p : Probe) (s : State) : (observe p s).state = s.state := rfl
@[simp] theorem observe_entQ (p : Probe) (s : State) : (observe p s).entQ = s.entQ := rfl
@[simp] theorem observe_csQ (p : Probe) (s : State) : (observe p s).csQ = s.csQ := rfl
@[simp] theorem observe_hq (p : Probe) (s : State) : (observe p s).hq = s.hq := rfl
@[simp] theorem observe_stim (p : Probe) (s : State) : (observe p s).stim = s.stim := rfl
@[simp] theorem observe_edge (p : Probe) (s : State) : (observe p s).edge = s.edge := rfl
@[simp] theorem observe_taken (p : Probe) (s : State) : (observe p s).taken = s.taken := rfl
@[simp] theorem observe_probe (p : Probe) (s : State) : (observe p s).probe = some p := rfl

/-! ## drive -/

@[simp] theorem drive_state (i : Inputs) (s : State) : (s.drive i).state = s.state := rfl
@[simp] theorem drive_entQ (i : Inputs) (s : State) : (s.drive i).entQ = s.entQ := rfl
@[simp] theorem drive_csQ (i : Inputs) (s : State) : (s.drive i).csQ = s.csQ := rfl
@[simp] theorem drive_hq (i : Inputs) (s : State) : (s.drive i).hq = s.hq := rfl
@[simp] theorem drive_stim (i : Inputs) (s : State) : (s.drive i).stim = [i] := rfl
@[simp] theorem drive_edge (i : Inputs) (s : State) : (s.drive i).edge = s.edge := rfl
@[simp] theorem drive_taken (i : Inputs) (s : State) : (s.drive i).taken = s.taken := rfl
@[simp] theorem drive_probe (i : Inputs) (s : State) : (s.drive i).probe = s.probe := rfl

/-! ## endEdge -/

@[simp] theorem endEdge_state (s : State) : (endEdge s).state = s.state := rfl
@[simp] theorem endEdge_entQ (s : State) : (endEdge s).entQ = s.entQ := rfl
@[simp] theorem endEdge_csQ (s : State) : (endEdge s).csQ = s.csQ := rfl
@[simp] theorem endEdge_hq (s : State) : (endEdge s).hq = s.hq := rfl
@[simp] theorem endEdge_stim (s : State) : (endEdge s).stim = s.stim.drop 1 := rfl
@[simp] theorem endEdge_edge (s : State) : (endEdge s).edge = s.edge + 1 := rfl
@[simp] theorem endEdge_taken (s : State) : (endEdge s).taken = s.taken := rfl
@[simp] theorem endEdge_probe (s : State) : (endEdge s).probe = s.probe := rfl

/-! ## placeWord -/

@[simp] theorem placeWord_state (nbits w : Nat) (s : State) : (placeWord nbits w s).state = stateOfWord nbits w := rfl
@[simp] theorem placeWord_entQ (nbits w : Nat) (s : State) : (placeWord nbits w s).entQ = s.entQ := rfl
@[simp] theorem placeWord_csQ (nbits w : Nat) (s : State) : (placeWord nbits w s).csQ = s.csQ := rfl
@[simp] theorem placeWord_hq (nbits w : Nat) (s : State) : (placeWord nbits w s).hq = s.hq := rfl
@[simp] theorem placeWord_stim (nbits w : Nat) (s : State) : (placeWord nbits w s).stim = inputsOfWord nbits w :: s.stim.drop 1 := rfl
@[simp] theorem placeWord_edge (nbits w : Nat) (s : State) : (placeWord nbits w s).edge = s.edge := rfl
@[simp] theorem placeWord_taken (nbits w : Nat) (s : State) : (placeWord nbits w s).taken = s.taken := rfl
@[simp] theorem placeWord_probe (nbits w : Nat) (s : State) : (placeWord nbits w s).probe = s.probe := rfl

/-! ## Outputs read the registers only -/

theorem outputs_congr {s t : State} (h1 : s.state = t.state) (h2 : s.entQ = t.entQ) (h3 : s.csQ = t.csQ) :
    outputs s = outputs t := by
  simp only [outputs, inReady, hreqValid, hreqMsg, hrespReady, outValid, outIdxFlat, busy, h1, h2, h3]

theorem hreqMsg_of_req {s : State} (h : s.state = .req) : hreqMsg s = s.entQ := by simp [hreqMsg, h, msg]

theorem hreqMsg_of_not_req {s : State} (h : s.state ≠ .req) : hreqMsg s = 0 := by simp [hreqMsg, h]

theorem outIdxFlat_of_done {s : State} (h : s.state = .done) : outIdxFlat s = flat (slice (bcat s.entQ s.csQ)) := by
  simp [outIdxFlat, h]

theorem outIdxFlat_of_not_done {s : State} (h : s.state ≠ .done) : outIdxFlat s = 0 := by simp [outIdxFlat, h]

end Sys2Proof.Machine
end

