-- ==== Sys2Proof/Laws/Select.lean ====
section
/-! SUPPORT. What step an edge takes (R73, R152), said once: the provers cite these instead of unfolding the control vector and its
masks. -/

namespace Sys2Proof.Machine

/-- The step as a function of the state and the inputs: `rst` first, then the one handshake input the state looks at (R152, R195). -/
theorem decodeCtl_ctlOf (st : SeqState) (i : Inputs) (e : Ent) (d : Dig) :
    decodeCtl (ctlOf st i) e d =
      if i.rst then .reset else
        match st with
        | .idle => if i.inValid then .accept e else .holdIdle
        | .req => if i.hreqReady then .hreq else .holdReq
        | .wait => if i.hrespValid then .hresp d else .holdWait
        | .done => if i.outReady then .deliver else .holdDone := by
  obtain ⟨rst, inv, ent, hr, hv, dig, ord⟩ := i
  cases st <;> cases rst <;> cases inv <;> cases hr <;> cases hv <;> cases ord <;> simp [decodeCtl, ctlOf, SeqState.code]

/-- The step of the coming edge (R152). -/
theorem select_eq (s : State) :
    select s =
      if (inputsOf s).rst then .reset else
        match s.state with
        | .idle => if (inputsOf s).inValid then .accept (inputsOf s).inEntropy else .holdIdle
        | .req => if (inputsOf s).hreqReady then .hreq else .holdReq
        | .wait => if (inputsOf s).hrespValid then .hresp (inputsOf s).hrespDigest else .holdWait
        | .done => if (inputsOf s).outReady then .deliver else .holdDone :=
  decodeCtl_ctlOf _ _ _ _

@[simp] theorem inputsOf_drive (i : Inputs) (s : State) : inputsOf (s.drive i) = i := rfl

/-- The nine things an edge can do: which step is selected, under which condition (R73). -/
theorem select_cases (s : State) :
    ((inputsOf s).rst = true ∧ select s = .reset) ∨
    ((inputsOf s).rst = false ∧
      ((s.state = .idle ∧ (inputsOf s).inValid = true ∧ select s = .accept (inputsOf s).inEntropy) ∨
       (s.state = .idle ∧ (inputsOf s).inValid = false ∧ select s = .holdIdle) ∨
       (s.state = .req ∧ (inputsOf s).hreqReady = true ∧ select s = .hreq) ∨
       (s.state = .req ∧ (inputsOf s).hreqReady = false ∧ select s = .holdReq) ∨
       (s.state = .wait ∧ (inputsOf s).hrespValid = true ∧ select s = .hresp (inputsOf s).hrespDigest) ∨
       (s.state = .wait ∧ (inputsOf s).hrespValid = false ∧ select s = .holdWait) ∨
       (s.state = .done ∧ (inputsOf s).outReady = true ∧ select s = .deliver) ∨
       (s.state = .done ∧ (inputsOf s).outReady = false ∧ select s = .holdDone))) := by
  rw [select_eq]
  cases (inputsOf s).rst <;> cases s.state <;> simp

/-- What an edge does: the step's condition and the whole next state. Everything the machine can do stands here. -/
theorem step_cases {s t : State} (h : step s = .next t) :
    ((inputsOf s).rst = true ∧ select s = .reset ∧ t = endEdge (resetAll s)) ∨
    ((inputsOf s).rst = false ∧
      ((s.state = .idle ∧ (inputsOf s).inValid = true ∧ select s = .accept (inputsOf s).inEntropy ∧
          t = endEdge (goTo .req (captureEntropy (inputsOf s).inEntropy s))) ∨
       (s.state = .idle ∧ (inputsOf s).inValid = false ∧ select s = .holdIdle ∧ t = endEdge s) ∨
       (s.state = .req ∧ (inputsOf s).hreqReady = true ∧ select s = .hreq ∧ t = endEdge (goTo .wait (recordRequest s))) ∨
       (s.state = .req ∧ (inputsOf s).hreqReady = false ∧ select s = .holdReq ∧ t = endEdge s) ∨
       (s.state = .wait ∧ (inputsOf s).hrespValid = true ∧ select s = .hresp (inputsOf s).hrespDigest ∧
          t = endEdge (goTo .done (dropRequest (captureChecksum (inputsOf s).hrespDigest s)))) ∨
       (s.state = .wait ∧ (inputsOf s).hrespValid = false ∧ select s = .holdWait ∧ t = endEdge s) ∨
       (s.state = .done ∧ (inputsOf s).outReady = true ∧ select s = .deliver ∧
          t = endEdge (goTo .idle (zeroise (handOver s)))) ∨
       (s.state = .done ∧ (inputsOf s).outReady = false ∧ select s = .holdDone ∧ t = endEdge s))) := by
  unfold step at h
  rcases select_cases s with ⟨hr, hs⟩ | ⟨hr, h1 | h1 | h1 | h1 | h1 | h1 | h1 | h1⟩
  · rw [hs] at h; cases h; exact .inl ⟨hr, hs, rfl⟩
  all_goals
    obtain ⟨ha, hb, hs⟩ := h1
    rw [hs] at h
    cases h
    simp [hr, ha, hb, hs]

/-- Every operation has a next state (R190). -/
theorem exec_next (i : Instr) (s : State) : ∃ t, exec i s = .next t := by
  cases i <;> exact ⟨_, rfl⟩

/-- Every edge has a next state (R74). -/
theorem step_next (s : State) : ∃ t, step s = .next t := by
  obtain ⟨t, ht⟩ := exec_next (select s) s
  exact ⟨endEdge t, by simp [step, ht, endEdgeOf]⟩

end Sys2Proof.Machine
end

