-- ==== Sys2Proof/Laws/Run.lean ====
section
/-! SUPPORT. Runs: the induction every claim about a run uses, said once; and what the bookkeeping of claims (`pendingAfter`, `owedAt`,
`isHold`) says of each step, true by rfl, so that a proof never unfolds their matches. -/

namespace Sys2Proof.Machine

/-- What every step keeps, a run keeps. -/
theorem run_inv {ok inv : State → Prop} (hstep : ∀ s t, inv s → ok s → step s = .next t → inv t)
    {s t : State} {is : List Instr} (hrun : Run ok s is t) (h : inv s) : inv t := by
  induction hrun with
  | nil => exact h
  | cons hok hst _ ih => exact ih (hstep _ _ h hok hst)

/-- A run under a stronger condition is a run under a weaker one. -/
theorem Run.mono {ok ok' : State → Prop} (himp : ∀ s, ok s → ok' s) {s t : State} {is : List Instr} (hrun : Run ok s is t) :
    Run ok' s is t := by
  induction hrun with
  | nil s => exact .nil s
  | cons hok hst _ ih => exact .cons (himp _ hok) hst ih

/-- A run made longer at its front, with the step named. -/
theorem Run.takes {ok : State → Prop} {s t u : State} {i : Instr} {is : List Instr} (hok : ok s) (hsel : select s = i)
    (hex : exec i s = .next t) (rest : Run ok (endEdge t) is u) : Run ok s (i :: is) u := by
  subst hsel
  exact .cons hok (by rw [Machine.step, hex, endEdgeOf]) rest

/-- A run that takes no step goes nowhere. -/
theorem Run.eq_of_nil {ok : State → Prop} {s t : State} (h : Run ok s [] t) : t = s := by
  cases h; rfl

/-- The first step of a run and the run after it. -/
theorem Run.cons_inv {ok : State → Prop} {s u : State} {i : Instr} {is : List Instr} (h : Run ok s (i :: is) u) :
    ok s ∧ select s = i ∧ ∃ t, step s = .next t ∧ Run ok t is u := by
  generalize hl : i :: is = l at h
  cases h with
  | nil => cases hl
  | cons hok hst rest =>
    injection hl with h1 h2
    subst h1 h2
    exact ⟨hok, rfl, _, hst, rest⟩

/-- A run cut in two. -/
theorem Run.append_inv {ok : State → Prop} {is js : List Instr} {s u : State} (h : Run ok s (is ++ js) u) :
    ∃ t, Run ok s is t ∧ Run ok t js u := by
  induction is generalizing s with
  | nil => exact ⟨s, .nil s, h⟩
  | cons i is ih =>
    obtain ⟨hok, hi, t, hst, rest⟩ := Run.cons_inv h
    obtain ⟨v, h1, h2⟩ := ih rest
    exact ⟨v, hi ▸ .cons hok hst h1, h2⟩

/-- Every edge uses up one line of the stimulus and is counted. -/
theorem step_stim {s t : State} (h : step s = .next t) : t.stim = s.stim.drop 1 ∧ t.edge = s.edge + 1 := by
  rcases step_cases h with ⟨-, -, rfl⟩ | ⟨-, h1⟩
  · exact ⟨rfl, rfl⟩
  · rcases h1 with ⟨-, -, -, rfl⟩ | ⟨-, -, -, rfl⟩ | ⟨-, -, -, rfl⟩ | ⟨-, -, -, rfl⟩ | ⟨-, -, -, rfl⟩ | ⟨-, -, -, rfl⟩ |
      ⟨-, -, -, rfl⟩ | ⟨-, -, -, rfl⟩ <;> exact ⟨rfl, rfl⟩

/-- The first edge of a run of the host's. -/
theorem core_run_succ {n : Nat} {s t : State} (h : Host.Core.run Sys2Proof.core (n + 1) s = .next t) :
    ∃ u, step s = .next u ∧ Host.Core.run Sys2Proof.core n u = .next t := by
  obtain ⟨u, hu⟩ := step_next s
  refine ⟨u, hu, ?_⟩
  have hc : Sys2Proof.core.step s = .next u := hu
  simp only [Host.Core.run, hc] at h
  exact h

/-! ## What each step leaves undelivered -/

@[simp] theorem pendingAfter_accept (p : Option Ent) (e : Ent) : pendingAfter p (.accept e) = some e := rfl
@[simp] theorem pendingAfter_reset (p : Option Ent) : pendingAfter p .reset = none := rfl
@[simp] theorem pendingAfter_deliver (p : Option Ent) : pendingAfter p .deliver = none := rfl
@[simp] theorem pendingAfter_hreq (p : Option Ent) : pendingAfter p .hreq = p := rfl
@[simp] theorem pendingAfter_hresp (p : Option Ent) (d : Dig) : pendingAfter p (.hresp d) = p := rfl
@[simp] theorem pendingAfter_holdIdle (p : Option Ent) : pendingAfter p .holdIdle = p := rfl
@[simp] theorem pendingAfter_holdReq (p : Option Ent) : pendingAfter p .holdReq = p := rfl
@[simp] theorem pendingAfter_holdWait (p : Option Ent) : pendingAfter p .holdWait = p := rfl
@[simp] theorem pendingAfter_holdDone (p : Option Ent) : pendingAfter p .holdDone = p := rfl

/-! ## What the caller is owed by each step -/

@[simp] theorem owedAt_accept (p : Option Ent) (e : Ent) : owedAt p (.accept e) = [] := rfl
@[simp] theorem owedAt_reset (p : Option Ent) : owedAt p .reset = [] := rfl
@[simp] theorem owedAt_deliver_some (e : Ent) : owedAt (some e) .deliver = [flat (machineEncode e)] := rfl
@[simp] theorem owedAt_deliver_none : owedAt none .deliver = [] := rfl
@[simp] theorem owedAt_hreq (p : Option Ent) : owedAt p .hreq = [] := rfl
@[simp] theorem owedAt_hresp (p : Option Ent) (d : Dig) : owedAt p (.hresp d) = [] := rfl
@[simp] theorem owedAt_holdIdle (p : Option Ent) : owedAt p .holdIdle = [] := rfl
@[simp] theorem owedAt_holdReq (p : Option Ent) : owedAt p .holdReq = [] := rfl
@[simp] theorem owedAt_holdWait (p : Option Ent) : owedAt p .holdWait = [] := rfl
@[simp] theorem owedAt_holdDone (p : Option Ent) : owedAt p .holdDone = [] := rfl

/-! ## Which steps hold -/

@[simp] theorem isHold_accept (e : Ent) : isHold (.accept e) = false := rfl
@[simp] theorem isHold_reset : isHold .reset = false := rfl
@[simp] theorem isHold_deliver : isHold .deliver = false := rfl
@[simp] theorem isHold_hreq : isHold .hreq = false := rfl
@[simp] theorem isHold_hresp (d : Dig) : isHold (.hresp d) = false := rfl
@[simp] theorem isHold_holdIdle : isHold .holdIdle = true := rfl
@[simp] theorem isHold_holdReq : isHold .holdReq = true := rfl
@[simp] theorem isHold_holdWait : isHold .holdWait = true := rfl
@[simp] theorem isHold_holdDone : isHold .holdDone = true := rfl

end Sys2Proof.Machine
end

