-- ==== Sys2Proof/Tests/Slice0.lean ====
section
/-! SUPPORT. Tests. Expected values are those of spec/95_test_vectors.md, or are counted out from the encodings of spec/30; no value is
the model's own answer. The last part shows, for each statement with hypotheses, concrete values that meet them. -/

namespace Sys2Proof.Tests

open Sys2Proof.Machine

/-! ## Helpers -/

/-- `X` of spec/95 section 3.2: an arbitrary second value. -/
def valueX : Ent := 0xa5a5a5a5a5a5a5a5a5a5a5a5a5a5a5a5a5a5a5a5a5a5a5a5a5a5a5a5a5a5a5a5

/-- The bytes `00 01 … 20` (spec/95 section 2.3, row 15). -/
def row15 : Comb := 0x000102030405060708090a0b0c0d0e0f101112131415161718191a1b1c1d1e1f20

/-- The registers of a state and the inputs of one edge: what the registers are after it. -/
def after (st : SeqState) (e : Ent) (c : Cs) (i : Inputs) : Option Regs :=
  match step ((State.powerOn st e c none).drive i) with
  | .next t => some (regs t)
  | .fault _ => none
  | .refused _ => none

/-- The state with some stimulus to come, from reset. -/
def withStim (is : List Inputs) : State := { State.reset with stim := is }

/-- The result a datapath operation shows. -/
def probeOf (i : Instr) : Option Probe :=
  match exec i State.reset with
  | .next t => t.probe
  | .fault _ => none
  | .refused _ => none

/-! ## Well-formedness: an ill-formed line for each check -/

theorem test_wf_put_64_digits : (Line.put (List.replicate 64 15)).wellFormed = true := by decide
theorem test_wf_refuses_put_63_digits : (Line.put (List.replicate 63 15)).wellFormed = false := by decide
theorem test_wf_refuses_hrsp_65_digits : (Line.hrsp (List.replicate 65 0)).wellFormed = false := by decide
theorem test_wf_union : (Line.plus (.put (List.replicate 64 1)) .get).wellFormed = true := by decide
theorem test_wf_refuses_two_entropies :
    (Line.plus (.put (List.replicate 64 1)) (.put (List.replicate 64 2))).wellFormed = false := by decide
theorem test_wf_refuses_two_digests : (Line.plus .hrspHash (.hrsp (List.replicate 64 2))).wellFormed = false := by
  decide
theorem test_wf_refuses_bad_left : (Line.plus (.put []) .get).wellFormed = false := by decide
theorem test_wf_refuses_bad_right : (Line.plus .get (.put [])).wellFormed = false := by decide
theorem test_wf_refuses_encode_63_digits : (Pseudo.encode (List.replicate 63 0)).wellFormed = false := by decide
theorem test_wf_refuses_pseudo_line : (Pseudo.line (.put [])).wellFormed = false := by decide

/-! ## Decoding: words written out bit by bit from R73, with the don't-care bits 0 and then 1 -/

theorem test_decode_reset :
    decodeTableWord 8 0b01000000 = some .reset ∧ decodeTableWord 8 0b01111111 = some .reset := by decide
theorem test_decode_accept :
    decodeTableWord 8 0b00001000 = some (.accept 0) ∧ decodeTableWord 8 0b00001111 = some (.accept 0) := by decide
theorem test_decode_hreq :
    decodeTableWord 8 0b00010100 = some .hreq ∧ decodeTableWord 8 0b00011111 = some .hreq := by decide
theorem test_decode_hresp :
    decodeTableWord 8 0b00100010 = some (.hresp 0) ∧ decodeTableWord 8 0b00101111 = some (.hresp 0) := by decide
theorem test_decode_deliver :
    decodeTableWord 8 0b00110001 = some .deliver ∧ decodeTableWord 8 0b00111111 = some .deliver := by decide
theorem test_decode_holdIdle :
    decodeTableWord 8 0b00000000 = some .holdIdle ∧ decodeTableWord 8 0b00000111 = some .holdIdle := by decide
theorem test_decode_holdReq :
    decodeTableWord 8 0b00010000 = some .holdReq ∧ decodeTableWord 8 0b00011011 = some .holdReq := by decide
theorem test_decode_holdWait :
    decodeTableWord 8 0b00100000 = some .holdWait ∧ decodeTableWord 8 0b00101101 = some .holdWait := by decide
theorem test_decode_holdDone :
    decodeTableWord 8 0b00110000 = some .holdDone ∧ decodeTableWord 8 0b00111110 = some .holdDone := by decide
/-- Byte 0 of the entropy is the byte after the control vector and holds its most significant bits (R12). -/
theorem test_decode_accept_data : decodeTableWord 520 (0x08 + 0xab * 2 ^ 8 + 0xcd * 2 ^ 256) =
    some (.accept 0xab000000000000000000000000000000000000000000000000000000000000cd) := by decide +kernel
/-- The digest follows the 32 bytes of the entropy (R77). -/
theorem test_decode_hresp_data : decodeTableWord 520 (0x22 + 0xbd * 2 ^ 264 + 0xc6 * 2 ^ 512) =
    some (.hresp 0xbd000000000000000000000000000000000000000000000000000000000000c6) := by decide +kernel
theorem test_decode_refuses_empty : decode [] = .error (.wrongLength 0) := by rfl
theorem test_decode_refuses_short : decode (List.replicate 64 0) = .error (.wrongLength 64) := by rfl
theorem test_decode_refuses_long : decode (List.replicate 66 0) = .error (.wrongLength 66) := by rfl
theorem test_decode_refuses_bit_7 : decode (0x88 :: List.replicate 64 0) = .error (.notAControlVector 0x88) := by rfl
theorem test_decode_table_refuses_bit_7 : decodeTableWord 8 0x80 = none := by decide
/-- R72: a datapath operation has no selecting bits. -/
theorem test_encode_datapath : encode (.csum 0) = none ∧ encode (.slice23 0) = none ∧ encode (.encode 0) = none := by decide
/-- The counts of spec/95 section 3.1. -/
theorem test_decode_counts :
    ((List.range 128).map fun c => (decodeTableWord 8 c)).count (some .reset) = 64 ∧
    ((List.range 128).map fun c => (decodeTableWord 8 c)).count (some (.accept 0)) = 8 ∧
    ((List.range 128).map fun c => (decodeTableWord 8 c)).count (some .hreq) = 8 ∧
    ((List.range 128).map fun c => (decodeTableWord 8 c)).count (some (.hresp 0)) = 8 ∧
    ((List.range 128).map fun c => (decodeTableWord 8 c)).count (some .deliver) = 8 := by decide +kernel

/-! ## Datapath operations (spec/95 sections 1.2 and 2) -/

theorem test_msg : probeOf (.msg entropyV5) = some (.msg entropyV5) := by decide
theorem test_trunc8_first_byte : probeOf (.trunc8 0x0123456789abcdef0123456789abcdef0123456789abcdef0123456789abcdef)
    = some (.cs 0x01) := by decide
theorem test_trunc8_ignores_the_rest : probeOf (.trunc8 0x00ffffffffffffffffffffffffffffffffffffffffffffffffffffffffffffff)
    = some (.cs 0x00) := by decide
theorem test_csum_sha256 : csum sha256 0x000102030405060708090a0b0c0d0e0f101112131415161718191a1b1c1d1e1f = 0x63 := by decide +kernel
theorem test_csum_hash_id : csum (fun m => m) entropyV5 = 0x68 := by decide
theorem test_bcat_neighbours : probeOf (.bcat 1 0x80) = some (.comb 0x180) := by decide
theorem test_bcat_ends : probeOf (.bcat 0x8000000000000000000000000000000000000000000000000000000000000000 0x01)
    = some (.comb 0x800000000000000000000000000000000000000000000000000000000000000001) := by decide
theorem test_slice_order : (slice 0x0020080180400a018038080120280580c01a038078100220480981402a0580b818).map BitVec.toNat
    = Vector.ofFn fun k => k.val + 1 := by decide +kernel
theorem test_slice_row16 : (slice 0x0123456789abcdef0123456789abcdef0123456789abcdef0123456789abcdef01).toList
    = [9, 209, 719, 154, 1510, 1980, 36, 837, 828, 618, 1947, 1776, 145, 1301, 1265, 427, 1647, 960, 582, 1110, 964, 1711, 445,
       1793] := by decide
theorem test_slice0_row15 : probeOf (.slice0 row15) = some (.index 0 0) := by decide
theorem test_slice1_row15 : probeOf (.slice1 row15) = some (.index 1 64) := by decide
theorem test_slice2_row15 : probeOf (.slice2 row15) = some (.index 2 1030) := by decide
theorem test_slice3_row15 : probeOf (.slice3 row15) = some (.index 3 64) := by decide
theorem test_slice4_row15 : probeOf (.slice4 row15) = some (.index 4 643) := by decide
theorem test_slice5_row15 : probeOf (.slice5 row15) = some (.index 5 28) := by decide
theorem test_slice6_row15 : probeOf (.slice6 row15) = some (.index 6 257) := by decide
theorem test_slice7_row15 : probeOf (.slice7 row15) = some (.index 7 266) := by decide
theorem test_slice8_row15 : probeOf (.slice8 row15) = some (.index 8 88) := by decide
theorem test_slice9_row15 : probeOf (.slice9 row15) = some (.index 9 771) := by decide
theorem test_slice10_row15 : probeOf (.slice10 row15) = some (.index 10 540) := by decide
theorem test_slice11_row15 : probeOf (.slice11 row15) = some (.index 11 241) := by decide
theorem test_slice12_row15 : probeOf (.slice12 row15) = some (.index 12 8) := by decide
theorem test_slice13_row15 : probeOf (.slice13 row15) = some (.index 13 1096) := by decide
theorem test_slice14_row15 : probeOf (.slice14 row15) = some (.index 14 610) := by decide
theorem test_slice15_row15 : probeOf (.slice15 row15) = some (.index 15 1045) := by decide
theorem test_slice16_row15 : probeOf (.slice16 row15) = some (.index 16 176) := by decide
theorem test_slice17_row15 : probeOf (.slice17 row15) = some (.index 17 1478) := by decide
theorem test_slice18_row15 : probeOf (.slice18 row15) = some (.index 18 50) := by decide
theorem test_slice19_row15 : probeOf (.slice19 row15) = some (.index 19 417) := by decide
theorem test_slice20_row15 : probeOf (.slice20 row15) = some (.index 20 1422) := by decide
theorem test_slice21_row15 : probeOf (.slice21 row15) = some (.index 21 116) := by decide
theorem test_slice22_row15 : probeOf (.slice22 row15) = some (.index 22 963) := by decide
theorem test_slice23_row15 : probeOf (.slice23 row15) = some (.index 23 1824) := by decide
theorem test_flat_row14 : flat (Vector.ofFn fun k : Fin 24 => BitVec.ofNat 11 (2 ^ (k.val % 11)))
    = 0x002008020080200802008020080200001004010040100401004010040100000802 := by decide
theorem test_flat_row13 : probeOf (.flat (Vector.ofFn fun k : Fin 24 => BitVec.ofNat 11 (2047 - k.val)))
    = some (.bus 0xfffffbfeffcff7febfcff8feffdbfaff4fe7fcbf8ff0fdffbbf6fecfd7fabf4fe8) := by decide
theorem test_encode_hash_id : (encodeWith (fun m => m) entropyV5).toList
    = [837, 487, 1369, 547, 292, 463, 1369, 1104, 1628, 1819, 1429, 204, 839, 663, 806, 1785, 1084, 497, 1048, 2027, 1594, 923, 463,
       1128] := by decide
theorem test_encode_sha256 :
    (encodeWith sha256 0x1f1e1d1c1b1a191817161514131211100f0e0d0c0b0a09080706050403020100).toList
    = [248, 1927, 568, 433, 1292, 1120, 738, 1557, 160, 1220, 1058, 256, 1927, 52, 385, 778, 72, 513, 1548, 80, 513, 1032, 32,
       105] := by decide +kernel

/-- R8: the constants fit each other exactly. -/
theorem test_constants :
    Config.entBits + Config.csBits = Config.combBits ∧ Config.groupBits * Config.nWords = Config.combBits ∧
    2 ^ Config.groupBits = Config.dictSize ∧ Config.dictSize = Config.idxMax + 1 ∧
    8 * Config.entBytes = Config.entBits ∧ 8 * Config.digestBytes = Config.digestBits := by decide

/-! ## The SHA-256 instance (spec/95 section 2.5) -/

theorem test_sha_schedule : ((shaSchedule 0).drop 16).take 8
    = [0x00000000, 0x00a00000, 0x00000000, 0x00002844, 0x00000000, 0x112a800a, 0x00000100, 0x21002010] := by decide
theorem test_sha_round_0 : shaRounds 0 1
    = ⟨0xfc08884d, 0x6a09e667, 0xbb67ae85, 0x3c6ef372, 0x98c7e2a2, 0x510e527f, 0x9b05688c, 0x1f83d9ab⟩ := by decide

/-! ## Sequencer steps (spec/95 section 3.2, its vector number in the name) -/

theorem test_step_0_accept : after .idle 0 0 { noInputs with inValid := true, inEntropy := entropyV5 }
    = some ⟨.req, entropyV5, 0⟩ := by decide
theorem test_step_1_hreq : after .req entropyV5 0 { noInputs with hreqReady := true } = some ⟨.wait, entropyV5, 0⟩ := by
  decide
theorem test_step_4_hresp : after .wait entropyV5 0
    { noInputs with hrespValid := true, hrespDigest := 0xa500000000000000000000000000000000000000000000000000000000000000 } = some ⟨.done, entropyV5, 0xa5⟩ := by
  decide
theorem test_step_5_hresp : after .wait entropyV5 0
    { noInputs with hrespValid := true, hrespDigest := 0x00ffffffffffffffffffffffffffffffffffffffffffffffffffffffffffffff } = some ⟨.done, entropyV5, 0⟩ := by
  decide
theorem test_step_6_deliver : after .done entropyV5 0xa5 { noInputs with outReady := true } = some ⟨.idle, 0, 0⟩ := by
  decide
theorem test_step_7_reset_wins : after .done entropyV5 0xa5 { noInputs with rst := true, outReady := true }
    = some ⟨.idle, 0, 0⟩ := by decide
theorem test_step_11_hold_idle : after .idle 0 0 { noInputs with hreqReady := true, hrespValid := true, outReady := true }
    = some ⟨.idle, 0, 0⟩ := by decide
theorem test_step_12_hold_req : after .req entropyV5 0
    { noInputs with inValid := true, inEntropy := valueX, hrespValid := true, outReady := true } = some ⟨.req, entropyV5, 0⟩ := by
  decide
theorem test_step_13_hold_wait : after .wait entropyV5 0
    { noInputs with inValid := true, hreqReady := true, outReady := true } = some ⟨.wait, entropyV5, 0⟩ := by decide
theorem test_step_14_hold_done : after .done entropyV5 0
    { noInputs with inValid := true, hreqReady := true, hrespValid := true, hrespDigest := BitVec.allOnes 256 } = some ⟨.done, entropyV5, 0⟩ := by decide
theorem test_step_16_accept_unreset : after .idle valueX 0x5a { noInputs with inValid := true, inEntropy := entropyV5 }
    = some ⟨.req, entropyV5, 0x5a⟩ := by decide
theorem test_step_17_hold_unreset : after .req valueX 0x5a noInputs = some ⟨.req, valueX, 0x5a⟩ := by decide
/-- The engine drops its request at a reset (spec/95 program P3, line 3). -/
theorem test_reset_drops_request : (match step ((State.powerOn .wait entropyV3 0 (some entropyV3)).drive
    { noInputs with rst := true, hrespValid := true }) with
    | .next t => t.hq
    | .fault _ => some 0
    | .refused _ => some 0) = none := by decide
/-- A placed word runs as the first instruction after reset. -/
theorem test_placed_word : (match step (State.reset.withFetchWord 8 0x14) with
    | .next t => some (regs t)
    | .fault _ => none
    | .refused _ => none) = some ⟨.wait, 0, 0⟩ := by decide
/-- The code of a union is the OR of the codes (spec/95 program P4, line 0: `01010`). -/
theorem test_line_union : (lineInputs none (.plus (.put (List.replicate 64 3)) (.hrsp (List.replicate 64 15)))).map lineCode
    = some 0b01010 := by decide
/-- `HRSP HASH` has no meaning while the engine holds no request (log entry 10). -/
theorem test_line_hrsp_hash_needs_request : lineInputs none .hrspHash = none := by rfl

/-! ## Values that meet the hypotheses of the statements -/

theorem witness_DatapathIsPure : (Instr.csum 0).kind = .datapath ∧ (Instr.slice11 0).kind = .datapath ∧
    (Instr.encode 0).kind = .datapath := by decide

theorem witness_MsgIsTheEntropy : 0 < 32 ∧ 31 < 32 := by decide

/-- Two digests that agree in their first eight bits and in no other. -/
theorem witness_Trunc8IsTheFirstByte :
    ∀ b < 8, seqAt (0x5a00000000000000000000000000000000000000000000000000000000000000 : Dig) b
      = seqAt (0x5affffffffffffffffffffffffffffffffffffffffffffffffffffffffffffff : Dig) b := by decide

theorem witness_CsumIsTheFirstDigestByte :
    sha256 0 = 0x66687aadf862bd776c8fc18b8e9f8e20089714856ee233b3902a591d0d5f2925 := by decide +kernel

theorem witness_BcatIsEntropyThenChecksum : 0 < 256 ∧ 255 < 256 ∧ 0 < 8 ∧ 7 < 8 := by decide

theorem witness_BcatHasExactInverses : bcat entropyV5 0xa5 = bcat entropyV5 (0x5a ^^^ 0xff) := by decide

theorem witness_SliceCutsConsecutiveGroups : 0 < 11 ∧ 10 < 11 := by decide

theorem witness_SliceGroups0To11 : 0 < 11 ∧ 10 < 11 := by decide

theorem witness_SliceGroups12To23 : 0 < 11 ∧ 10 < 11 := by decide

theorem witness_GroupsCoverEveryBitOnce : 0 < 264 ∧ 263 < 264 ∧ 11 * 23 + 10 = 263 := by decide

theorem witness_EncodeIsSliceOfBcat :
    (0 : Fin 24).val ≤ 22 ∧ (22 : Fin 24).val ≤ 22 ∧ csum (fun _ => 0x66 <<< 248) 0 = 0x66 := by decide

theorem witness_EncodeIsInjectiveWithExactImage :
    encodeWith (fun m => m) entropyV5 = encodeWith (fun m => m) entropyV5 ∧
    (flat (slice 0x66)).extractLsb' 0 8 = csum (fun _ => 0x66 <<< 248) ((flat (slice 0x66)).extractLsb' 8 256) := by
  exact ⟨rfl, by decide⟩

theorem witness_HashTouchesLastIndexOnly : (0 : Fin 24).val < 23 ∧ (22 : Fin 24).val < 23 := by decide

/-- A word for every index: the 44 known words, and for the others words longer than those, each of its own length. -/
def sampleWord (i : Idx) : String :=
  match (knownWords ++ knownLastWords).lookup i with
  | some w => w
  | none => String.ofList (List.replicate (i.toNat + 20) 'x')

theorem lookup_mem {l : List (Idx × String)} {i : Idx} {w : String} (h : l.lookup i = some w) : (i, w) ∈ l := by
  induction l with
  | nil => cases h
  | cons p l ih =>
    rw [List.lookup_cons] at h
    split at h
    · rename_i he
      obtain rfl : i = p.1 := by simpa using he
      cases h
      exact List.mem_cons_self
    · exact List.mem_cons_of_mem _ (ih h)

theorem sampleWord_injective : Function.Injective sampleWord := by
  have known : ∀ p ∈ knownWords ++ knownLastWords, p.2.length < 20 := by decide +kernel
  have apart : ∀ p ∈ knownWords ++ knownLastWords, ∀ q ∈ knownWords ++ knownLastWords, p.2 = q.2 → p.1 = q.1 := by
    decide +kernel
  intro i j h
  unfold sampleWord at h
  split at h <;> split at h
  · rename_i hi _ _ hj
    exact apart _ (lookup_mem hi) _ (lookup_mem hj) h
  · rename_i hi _ _
    have hl := known _ (lookup_mem hi)
    rw [h] at hl
    simp at hl
  · rename_i _ _ hj
    have hl := known _ (lookup_mem hj)
    rw [← h] at hl
    simp at hl
  · have hl := congrArg String.length h
    simp at hl
    exact BitVec.eq_of_toNat_eq hl

/-- A Dictionary with the 44 entries, its 2048 words distinct. -/
def sampleDictionary : Dictionary where
  words := Vector.ofFn fun i => sampleWord (BitVec.ofFin i)
  distinct := by
    rw [Vector.toList_ofFn, List.nodup_ofFn]
    intro i j h
    exact BitVec.ofFin.inj (sampleWord_injective h)

theorem witness_FifthVectorResolves : knowsVectors sampleDictionary := by
  have known : ∀ p ∈ knownWords ++ knownLastWords, sampleWord p.1 = p.2 := by decide +kernel
  intro p hp
  rw [← known p hp]
  simp [dictRead, sampleDictionary]

theorem witness_ResolveLosesNothing :
    dictRead sampleDictionary 5 = dictRead sampleDictionary (2 + 3) ∧
    resolve sampleDictionary (slice 7) = resolve sampleDictionary (slice (3 + 4)) ∧
    resolve sampleDictionary (encodeWith sha256 7) = resolve sampleDictionary (encodeWith sha256 (3 + 4)) := by
  exact ⟨rfl, rfl, rfl⟩

theorem witness_IllFormedTextIsRejected :
    (Line.put (List.replicate 63 1)).wellFormed = false ∧ Hex.wellFormed (List.replicate 65 1) = false ∧
    ∃ l ∈ [Pseudo.line .get, Pseudo.encode []], l.wellFormed = false := by
  exact ⟨by decide +kernel, by decide +kernel, .encode [], by simp, rfl⟩

theorem witness_OutputsAreMoore :
    regs (State.powerOn .done entropyV2 0x17 none) = regs (State.powerOn .done entropyV2 0x17 (some 3)) ∧
    (State.powerOn .wait entropyV2 0x17 none).state = (State.powerOn .wait 0 0 none).state := by
  exact ⟨rfl, rfl⟩

/-- One state for each channel's transfer, and one for reset. -/
theorem witness_TransfersAreTheSteps :
    xferIn (withStim []) { noInputs with inValid := true } = true ∧
    xferHreq (State.powerOn .req 0 0 none) { noInputs with hreqReady := true } = true ∧
    xferHresp (State.powerOn .wait 0 0 none) { noInputs with hrespValid := true } = true ∧
    xferOut (State.powerOn .done 0 0 none) { noInputs with outReady := true } = true ∧
    (inputsOf (withStim [{ noInputs with rst := true, inValid := true }])).rst = true := by decide

/-- From `DONE`, from the reset state, and a control vector with bit 6. -/
theorem witness_ResetErases :
    (0x7f : Ctl).getLsbD 6 = true ∧ (0x40 : Ctl).getLsbD 6 = true ∧
    (inputsOf ((State.powerOn .done entropyV2 0x17 none).drive { noInputs with rst := true, outReady := true })).rst = true ∧
    State.reset.state = .idle ∧ exec .reset State.reset = .next State.reset ∧
    exec .reset (State.powerOn .done entropyV2 0x17 none) = .next State.reset := by
  exact ⟨by decide, by decide, rfl, rfl, rfl, rfl⟩

theorem witness_ResetReachesResetValues :
    (inputsOf ((State.powerOn .wait valueX 0x5a (some 1)).drive { noInputs with rst := true })).rst = true := by rfl

theorem witness_AcceptCapturesEntropy :
    (inputsOf (withStim [{ noInputs with inValid := true, inEntropy := entropyV3 }])).rst = false ∧
    (withStim [{ noInputs with inValid := true, inEntropy := entropyV3 }]).state = .idle ∧
    (inputsOf (withStim [{ noInputs with inValid := true, inEntropy := entropyV3 }])).inValid = true ∧
    exec (.accept entropyV3) State.reset = .next { State.reset with entQ := entropyV3, state := .req } ∧
    (State.powerOn .done entropyV3 0xbd none).state ≠ .idle := by
  exact ⟨rfl, rfl, rfl, rfl, by decide⟩

/-- A request taken while a response is offered too early (R144's corner). -/
theorem witness_HreqHandsTheMessageOver :
    let s := (State.powerOn .req entropyV3 0 none).drive { noInputs with hreqReady := true, hrespValid := true }
    (inputsOf s).rst = false ∧ s.state = .req ∧ (inputsOf s).hreqReady = true ∧
      exec .hreq s = .next { s with state := .wait, hq := some entropyV3 } := by
  exact ⟨rfl, rfl, rfl, rfl⟩

theorem witness_HrespCapturesChecksum :
    let s := (State.powerOn .wait entropyV3 0 (some entropyV3)).drive { noInputs with hrespValid := true }
    (inputsOf s).rst = false ∧ s.state = .wait ∧ (inputsOf s).hrespValid = true ∧
      exec (.hresp 0) s = .next { s with csQ := 0, state := .done, hq := none } ∧
      (1 : Dig).extractLsb' 248 8 = (2 : Dig).extractLsb' 248 8 ∧ State.reset.state ≠ .wait := by
  exact ⟨rfl, rfl, rfl, rfl, by decide, by decide⟩

/-- A delivery while an entropy is offered (R146's corner). -/
theorem witness_DeliverHandsOverAndErases :
    let s := (State.powerOn .done entropyV3 0xbd none).drive { noInputs with outReady := true, inValid := true }
    (inputsOf s).rst = false ∧ s.state = .done ∧ (inputsOf s).outReady = true ∧
      exec .deliver s = .next { s with state := .idle, entQ := 0, csQ := 0, taken := [outIdxFlat s] } ∧
      exec .deliver (State.powerOn .done entropyV3 0xbd none) =
        .next { State.reset with taken := [outIdxFlat (State.powerOn .done entropyV3 0xbd none)] } := by
  exact ⟨rfl, rfl, rfl, rfl, rfl⟩

/-- Each of the four states with the input it looks at 0. -/
theorem witness_HoldChangesNothing :
    ∀ st : SeqState, (inputsOf ((State.powerOn st valueX 0x5a none).drive noInputs)).rst = false ∧
      (match ((State.powerOn st valueX 0x5a none).drive noInputs).state with
        | .idle => (inputsOf ((State.powerOn st valueX 0x5a none).drive noInputs)).inValid
        | .req => (inputsOf ((State.powerOn st valueX 0x5a none).drive noInputs)).hreqReady
        | .wait => (inputsOf ((State.powerOn st valueX 0x5a none).drive noInputs)).hrespValid
        | .done => (inputsOf ((State.powerOn st valueX 0x5a none).drive noInputs)).outReady) = false := by
  intro st
  cases st <;> exact ⟨rfl, rfl⟩

/-- The example of R148: the state it starts from takes a step to the state it names. -/
theorem witness_HoldChangesNothing_example :
    let s := (State.powerOn .wait entropyV3 0 (some entropyV3)).drive
      { rst := false, inValid := true, inEntropy := BitVec.allOnes 256, hreqReady := true, hrespValid := false,
        hrespDigest := 0, outReady := true }
    step s = .next (endEdge s) := by
  intro s
  rw [step, select_eq]
  rfl

theorem witness_StepRunsTheDecodedOperation :
    decode (fetchBytes (withStim [{ noInputs with inValid := true, inEntropy := entropyV3 }])) = .ok (.accept entropyV3) ∧
    exec (.accept entropyV3) State.reset = .next (goTo .req (captureEntropy entropyV3 State.reset)) := by
  refine ⟨?_, rfl⟩
  rw [fetchBytes, decode_instrBytes, ctl, decodeCtl_ctlOf]
  rfl

theorem witness_DecodeOfEncode :
    encode (.accept entropyV3) = some (instrBytes 0x08 entropyV3 0) ∧ encode .holdDone = some (instrBytes 0x30 0 0) ∧
    Instr.kind .reset = .step := by
  exact ⟨rfl, rfl, rfl⟩

/-- A union whose two lines name different data words, one that names a word twice, and a line that names no data word. -/
theorem witness_LinesSetTheirInputs :
    lineInputs none (.put (hexOf 5)) = some { noInputs with inValid := true, inEntropy := 5 } ∧
    lineInputs none (.hrsp (hexOf 6)) = some { noInputs with hrespValid := true, hrespDigest := 6 } ∧
    ((Line.put (hexOf 5)).namesEntropy && (Line.hrsp (hexOf 6)).namesEntropy) = false ∧
    ((Line.put (hexOf 5)).namesDigest && (Line.hrsp (hexOf 6)).namesDigest) = false ∧
    ((Line.put (hexOf 5)).namesEntropy && (Line.put (hexOf 7)).namesEntropy) = true ∧
    (lineInputs none .get = some { noInputs with outReady := true } ∧ Line.get.namesEntropy = false ∧
      Line.get.namesDigest = false) := by
  exact ⟨by simp [lineInputs], by simp [lineInputs], rfl, rfl, rfl, rfl, rfl, rfl⟩

theorem witness_PlacedWordRuns : 0 < 128 ∧ 127 < 128 := by decide

theorem witness_ResetMeetsTheInvariant :
    regs (withStim [noInputs]) = regs State.reset ∧ (withStim [noInputs]).hq = none := by
  exact ⟨rfl, rfl⟩

/-! ### One whole transaction with an engine that keeps its duties -/

/-- The inputs of a transaction at minimum latency (R78), the engine answering with `HASH`. -/
def oneTransaction : List Inputs :=
  [{ noInputs with inValid := true, inEntropy := entropyV3 }, { noInputs with hreqReady := true },
   { noInputs with hrespValid := true, hrespDigest := Config.hash entropyV3 }, { noInputs with outReady := true }]

/-- Its start. -/
def tx0 : State := withStim oneTransaction
/-- After `ACCEPT`. -/
def tx1 : State := endEdge (goTo .req (captureEntropy entropyV3 tx0))
/-- After `HREQ`. -/
def tx2 : State := endEdge (goTo .wait (recordRequest tx1))
/-- After `HRESP`. -/
def tx3 : State := endEdge (goTo .done (dropRequest (captureChecksum (Config.hash entropyV3) tx2)))
/-- After `DELIVER`. -/
def tx4 : State := endEdge (goTo .idle (zeroise (handOver tx3)))

theorem select_tx0 : select tx0 = .accept entropyV3 := by rw [select_eq]; rfl
theorem select_tx1 : select tx1 = .hreq := by rw [select_eq]; rfl
theorem select_tx2 : select tx2 = .hresp (Config.hash entropyV3) := by rw [select_eq]; rfl
theorem select_tx3 : select tx3 = .deliver := by rw [select_eq]; rfl

theorem duty_tx0 : EngineDuty tx0 := ⟨fun h => (nomatch h), fun _ h => (nomatch h)⟩
theorem duty_tx1 : EngineDuty tx1 := ⟨fun h => (nomatch h), fun _ h => (nomatch h)⟩
theorem duty_tx2 : EngineDuty tx2 := ⟨fun _ h => (nomatch h), fun m _ h => by cases h; rfl⟩
theorem duty_tx3 : EngineDuty tx3 := ⟨fun h => (nomatch h), fun _ h => (nomatch h)⟩

theorem run_tx : Run EngineDuty tx0
    (.accept entropyV3 :: ([.hreq, .hresp (Config.hash entropyV3)] ++ [.deliver])) tx4 :=
  .takes duty_tx0 select_tx0 rfl (.takes duty_tx1 select_tx1 rfl (.takes duty_tx2 select_tx2 rfl
    (.takes duty_tx3 select_tx3 rfl (.nil tx4))))

theorem inv_tx0 : TransactionInv tx0 := by
  refine ⟨⟨fun _ => ⟨rfl, rfl⟩, fun _ => rfl, ?_, fun _ => rfl⟩, fun h => (nomatch h)⟩
  exact ⟨fun h => (nomatch h), fun h => (nomatch h)⟩

/-- The invariant in `WAIT`, where the engine is about to answer. -/
theorem inv_tx2 : TransactionInv tx2 :=
  ⟨⟨fun h => (nomatch h), fun _ => rfl, ⟨fun _ => rfl, fun _ => rfl⟩, fun h => absurd rfl h⟩, fun h => (nomatch h)⟩

theorem step_tx2 : step tx2 = .next tx3 := by rw [step, select_tx2]; rfl

theorem step_tx0 : step tx0 = .next tx1 := by rw [step, select_tx0]; rfl

/-- Every row of R152 has a state: this is `ACCEPT`'s. Two states that differ in data words. -/
theorem witness_TransitionRelation :
    step tx0 = .next tx1 ∧ handshakes (inputsOf tx0) = handshakes { noInputs with inValid := true, inEntropy := valueX } :=
  ⟨step_tx0, rfl⟩

/-- The entropy stays while the engine answers; from `WAIT` the request is not offered again. -/
theorem witness_HreqHandsTheMessageOver_once : (tx2.state = .wait ∨ tx2.state = .done) ∧ step tx2 = .next tx3 :=
  ⟨.inl rfl, step_tx2⟩

theorem witness_AcceptCapturesEntropy_kept : tx2.state ≠ .idle ∧ step tx2 = .next tx3 := ⟨by decide, step_tx2⟩

/-- The invariant in `DONE`, where the caller takes the result. -/
theorem witness_DeliverHandsOverAndErases_inv : TransactionInv tx3 ∧ tx3.state = .done :=
  ⟨⟨⟨fun h => (nomatch h), fun h => h.elim (fun h => (nomatch h)) (fun h => (nomatch h)),
    ⟨fun h => (nomatch h), fun h => (nomatch h)⟩, fun _ => rfl⟩, fun _ => ⟨rfl, rfl⟩⟩, rfl⟩

theorem witness_StepKeepsTransportInv : TransportInv tx2 ∧ step tx2 = .next tx3 := ⟨inv_tx2.1, step_tx2⟩

theorem witness_StepKeepsTransactionInv : TransactionInv tx2 ∧ EngineDuty tx2 ∧ step tx2 = .next tx3 :=
  ⟨inv_tx2, duty_tx2, step_tx2⟩

theorem witness_ReachedStatesMeetR33 :
    regs tx0 = regs State.reset ∧ tx0.hq = none ∧
    Run EngineDuty tx0 [.accept entropyV3, .hreq, .hresp (Config.hash entropyV3)] tx3 ∧ tx3.state = .done :=
  ⟨rfl, rfl, .takes duty_tx0 select_tx0 rfl (.takes duty_tx1 select_tx1 rfl (.takes duty_tx2 select_tx2 rfl (.nil tx3))), rfl⟩

theorem witness_TransactionIsCorrect :
    TransactionInv tx0 ∧
    Run EngineDuty tx0 (.accept entropyV3 :: ([.hreq, .hresp (Config.hash entropyV3)] ++ [.deliver])) tx4 ∧
    .reset ∉ [Instr.hreq, .hresp (Config.hash entropyV3)] ∧ .deliver ∉ [Instr.hreq, .hresp (Config.hash entropyV3)] :=
  ⟨inv_tx0, run_tx, by simp, by simp⟩

theorem witness_ResultsAreExactlyThoseOwed :
    regs tx0 = regs State.reset ∧ tx0.hq = none ∧
    Run EngineDuty tx0 (.accept entropyV3 :: ([.hreq, .hresp (Config.hash entropyV3)] ++ [.deliver])) tx4 :=
  ⟨rfl, rfl, run_tx⟩

theorem witness_EveryDeliveryHasItsTransaction :
    tx0.state = .idle ∧ Run (fun _ => True) tx0 ([.accept entropyV3, .hreq, .hresp (Config.hash entropyV3)] ++ [.deliver]) tx4 :=
  ⟨rfl, run_tx.mono fun _ _ => trivial⟩

/-- Each state the clauses ask for; a step under which a request is held. -/
theorem witness_PseudoLinesRun :
    State.reset.state = .idle ∧ (State.powerOn .req entropyV3 0 none).state = .req ∧ tx2.hq = some entropyV3 ∧
    step (tx1.drive { noInputs with hreqReady := true }) =
      .next (endEdge (goTo .wait (recordRequest (tx1.drive { noInputs with hreqReady := true })))) ∧
    (∀ m, tx1.hq = some m → (none : Option Ent) = some m) := by
  refine ⟨rfl, rfl, rfl, ?_, fun m h => h⟩
  rw [step, select_eq]
  rfl

/-- The run of an environment from reset. -/
def runOf (env : Nat → Inputs) : Nat → State
  | 0 => State.reset
  | n + 1 =>
    match step ((runOf env n).drive (env n)) with
    | .next t => t
    | .fault _ => State.reset
    | .refused _ => State.reset

theorem runOf_infinite (env : Nat → Inputs) : InfiniteRun env (runOf env) := by
  intro n
  obtain ⟨t, ht⟩ := step_next ((runOf env n).drive (env n))
  simp only [runOf, ht]

/-- An environment in which everybody is always ready, and which resets once, after the first delivery. -/
def readyEnv (n : Nat) : Inputs :=
  { rst := n == 4, inValid := true, inEntropy := entropyV3, hreqReady := true, hrespValid := true, hrespDigest := 0, outReady := true }

theorem readyRun_idle_4 : (runOf readyEnv 4).state = .idle := by rfl

/-- The transaction is over at edge 4, when the reset comes. -/
theorem witness_FairRunsDeliver :
    InfiniteRun readyEnv (runOf readyEnv) ∧ Fair readyEnv (runOf readyEnv) ∧ (runOf readyEnv 0).state = .idle ∧
    (readyEnv 0).inValid = true ∧ (readyEnv 0).rst = false ∧
    (∀ r, 0 < r → (∀ j, 0 < j → j ≤ r → (runOf readyEnv j).state ≠ .idle) → (readyEnv r).rst = false) := by
  refine ⟨runOf_infinite _, ⟨fun n _ => ⟨n, le_refl n, .inl rfl⟩, fun n _ => ⟨n, le_refl n, .inl rfl⟩,
    fun n _ => ⟨n, le_refl n, .inl rfl⟩⟩, rfl, rfl, rfl, fun r _ h => ?_⟩
  have hr : r ≠ 4 := fun he => h 4 (by decide) (by omega) readyRun_idle_4
  simpa [readyEnv] using hr

/-- An environment that offers an entropy, takes the request, resets in `WAIT`, and then drives nothing. -/
def idleEnv : Nat → Inputs
  | 0 => { noInputs with inValid := true, inEntropy := entropyV3 }
  | 1 => { noInputs with hreqReady := true }
  | 2 => { noInputs with rst := true }
  | _ + 3 => noInputs

theorem idleRun_idle (n : Nat) : (runOf idleEnv (n + 3)).state = .idle ∧ (runOf idleEnv (n + 3)).hq = none := by
  induction n with
  | zero => exact ⟨rfl, rfl⟩
  | succ n ih =>
    have hn := runOf_infinite idleEnv (n + 3)
    have hi : idleEnv (n + 3) = noInputs := rfl
    rw [hi, step, select_eq, inputsOf_drive, drive_state, ih.1] at hn
    rw [show n + 1 + 3 = n + 3 + 1 from rfl, ← Host.Outcome.next.inj hn]
    exact ih

/-- The progress duty, the fairness assumptions and the protocol duty agree on a run that is reset in `WAIT` and then idles: the
dropped request needs no answer. -/
theorem witness_ProgressDutyGivesFairness :
    InfiniteRun idleEnv (runOf idleEnv) ∧ TransportInv (runOf idleEnv 0) ∧ ProgressDuty idleEnv (runOf idleEnv) ∧
    CallerDrains idleEnv (runOf idleEnv) ∧ (runOf idleEnv 2).state = .wait ∧
    (∀ n, ProtocolDuty ((runOf idleEnv n).drive (idleEnv n))) := by
  have late : ∀ n, (runOf idleEnv (n + 3)).state = .idle ∧ (runOf idleEnv (n + 3)).hq = none := idleRun_idle
  refine ⟨runOf_infinite _, ?_, ⟨fun n _ => ⟨n + 3, by omega, .inr ?_⟩, fun n _ => ⟨n + 3, by omega, .inr (late n).2⟩⟩,
    fun n _ => ⟨n + 3, by omega, .inr ?_⟩, rfl, fun n => ?_⟩
  · exact ⟨fun _ => ⟨rfl, rfl⟩, fun _ => rfl, ⟨fun h => (nomatch h), fun h => (nomatch h)⟩, fun _ => rfl⟩
  · simp [hreqValid, (late n).1]
  · simp [(late n).1]
  · intro h
    match n, h with
    | 0, h => cases h
    | 1, h => cases h
    | 2, h => cases h
    | n + 3, h => cases h

/-- A delivery of one entropy and a reset of another. -/
theorem witness_ErasedEntropyLeavesNoTrace :
    let s := (State.powerOn .done entropyV3 0xbd none).drive { noInputs with outReady := true }
    let s' := (State.powerOn .wait valueX 0x5a (some 1)).drive { noInputs with rst := true }
    select s = .deliver ∧ select s' = .reset ∧ step s = .next (endEdge (goTo .idle (zeroise (handOver s)))) ∧
      step s' = .next (endEdge (resetAll s')) := by
  intro s s'
  have hs : select s = .deliver := by rw [select_eq]; rfl
  have hs' : select s' = .reset := by rw [select_eq]; rfl
  exact ⟨hs, hs', by rw [step, hs]; rfl, by rw [step, hs']; rfl⟩

/-- Two states that differ in every data word and agree in state and handshakes. -/
theorem witness_TimingIgnoresData :
    let s := (State.powerOn .done entropyV3 0xbd none).drive { noInputs with outReady := true, inEntropy := entropyV2 }
    let s' := (State.powerOn .done valueX 0x5a none).drive { noInputs with outReady := true, inEntropy := entropyV4 }
    s.state = s'.state ∧ s.stim.map handshakes = s'.stim.map handshakes ∧ 1 ≤ s.stim.length ∧
      (∃ t, Host.Core.run Sys2Proof.core 1 s = .next t) ∧ (∃ t', Host.Core.run Sys2Proof.core 1 s' = .next t') := by
  intro s s'
  refine ⟨rfl, rfl, le_refl 1, ?_, ?_⟩
  · obtain ⟨t, ht⟩ := step_next s
    have hc : Sys2Proof.core.step s = .next t := ht
    exact ⟨t, by simp only [Host.Core.run, hc]⟩
  · obtain ⟨t, ht⟩ := step_next s'
    have hc : Sys2Proof.core.step s' = .next t := ht
    exact ⟨t, by simp only [Host.Core.run, hc]⟩

/-- Two states with equal registers and inputs and different engines and histories. -/
theorem witness_OnlyTheRegistersMatter :
    let s := (State.powerOn .done entropyV3 0xbd none).drive { noInputs with outReady := true }
    let s' : State := { s with hq := some valueX, taken := [1, 2], probe := some (.cs 3) }
    regs s = regs s' ∧ s.stim = s'.stim ∧ s.edge = s'.edge ∧
      (∃ t, Host.Core.run Sys2Proof.core 1 s = .next t) ∧ (∃ t', Host.Core.run Sys2Proof.core 1 s' = .next t') := by
  intro s s'
  refine ⟨rfl, rfl, rfl, ?_, ?_⟩
  · obtain ⟨t, ht⟩ := step_next s
    have hc : Sys2Proof.core.step s = .next t := ht
    exact ⟨t, by simp only [Host.Core.run, hc]⟩
  · obtain ⟨t, ht⟩ := step_next s'
    have hc : Sys2Proof.core.step s' = .next t := ht
    exact ⟨t, by simp only [Host.Core.run, hc]⟩

end Sys2Proof.Tests
end

/-! ## The datapath operations as pure functions of their operands (spec/00_scope.md R14) -/

namespace Sys2Proof.Machine

/-- What a datapath operation puts on its wires: R72's column "operands -> result". It has no argument for the state, and a sequencer
step has no result. -/
def datapathResult : Instr → Option Probe
  | .csum ent => some (.cs (machineCsum ent))
  | .msg ent => some (.msg (msg ent))
  | .trunc8 digest => some (.cs (trunc8 digest))
  | .bcat ent cs => some (.comb (bcat ent cs))
  | .slice comb => some (.indices (slice comb))
  | .slice0 comb => some (.index 0 (slice0 comb))
  | .slice1 comb => some (.index 1 (slice1 comb))
  | .slice2 comb => some (.index 2 (slice2 comb))
  | .slice3 comb => some (.index 3 (slice3 comb))
  | .slice4 comb => some (.index 4 (slice4 comb))
  | .slice5 comb => some (.index 5 (slice5 comb))
  | .slice6 comb => some (.index 6 (slice6 comb))
  | .slice7 comb => some (.index 7 (slice7 comb))
  | .slice8 comb => some (.index 8 (slice8 comb))
  | .slice9 comb => some (.index 9 (slice9 comb))
  | .slice10 comb => some (.index 10 (slice10 comb))
  | .slice11 comb => some (.index 11 (slice11 comb))
  | .slice12 comb => some (.index 12 (slice12 comb))
  | .slice13 comb => some (.index 13 (slice13 comb))
  | .slice14 comb => some (.index 14 (slice14 comb))
  | .slice15 comb => some (.index 15 (slice15 comb))
  | .slice16 comb => some (.index 16 (slice16 comb))
  | .slice17 comb => some (.index 17 (slice17 comb))
  | .slice18 comb => some (.index 18 (slice18 comb))
  | .slice19 comb => some (.index 19 (slice19 comb))
  | .slice20 comb => some (.index 20 (slice20 comb))
  | .slice21 comb => some (.index 21 (slice21 comb))
  | .slice22 comb => some (.index 22 (slice22 comb))
  | .slice23 comb => some (.index 23 (slice23 comb))
  | .flat idx => some (.bus (flat idx))
  | .encode ent => some (.indices (machineEncode ent))
  | .reset | .accept _ | .hreq | .hresp _ | .deliver => none
  | .holdIdle | .holdReq | .holdWait | .holdDone => none

/-- The operations that have a result are those of kind `datapath` (R72). -/
theorem kind_eq_datapath_iff (i : Instr) : i.kind = .datapath ↔ ∃ p, datapathResult i = some p := by
  cases i <;> simp [Instr.kind, datapathResult]

/-- A datapath operation completes and shows its result; nothing else of the state changes. Each arm of `exec` is this equation, and
the steps have no result to be shown. -/
theorem exec_of_datapathResult {i : Instr} {p : Probe} (h : datapathResult i = some p) (s : State) :
    exec i s = .next (observe p s) := by
  cases i <;> cases h <;> rfl

/-- Settles O1: the one value that serves every state is `datapathResult`, which does not see the state, and `observe` writes `probe`
alone. -/
theorem datapathIsPure : Obligations.DatapathIsPure := by
  intro i hkind
  obtain ⟨p, hp⟩ := (kind_eq_datapath_iff i).mp hkind
  exact ⟨p, exec_of_datapathResult hp⟩

end Sys2Proof.Machine

/-! ## The outputs as functions of the registers (R25) -/

namespace Sys2Proof.Machine

theorem inReady_eq_decide (s : State) : inReady s = decide (s.state = .idle) := beq_eq_decide ..

theorem hreqValid_eq_decide (s : State) : hreqValid s = decide (s.state = .req) := beq_eq_decide ..

theorem hrespReady_eq_decide (s : State) : hrespReady s = decide (s.state = .wait) := beq_eq_decide ..

theorem outValid_eq_decide (s : State) : outValid s = decide (s.state = .done) := beq_eq_decide ..

theorem busy_eq_decide (s : State) : busy s = decide (s.state ≠ .idle) := decide_not.symm

/-- The seven equations of R25 as one record. The two data words are R25's expressions as the model writes them. -/
theorem outputs_eq (s : State) : outputs s =
    { inReady := decide (s.state = .idle)
      hreqValid := decide (s.state = .req)
      hreqMsg := if s.state = .req then msg s.entQ else 0
      hrespReady := decide (s.state = .wait)
      outValid := decide (s.state = .done)
      outIdxFlat := if s.state = .done then flat (slice (bcat s.entQ s.csQ)) else 0
      busy := decide (s.state ≠ .idle) } := by
  rw [outputs, inReady_eq_decide, hreqValid_eq_decide, hrespReady_eq_decide, outValid_eq_decide, busy_eq_decide, hreqMsg,
    outIdxFlat]

theorem flags_eq (s : State) : flags s =
    (decide (s.state = .idle), decide (s.state = .req), decide (s.state = .wait), decide (s.state = .done),
      decide (s.state ≠ .idle)) := by
  rw [flags, inReady_eq_decide, hreqValid_eq_decide, hrespReady_eq_decide, outValid_eq_decide, busy_eq_decide]

/-- Equal registers are equal register by register (R20). -/
theorem regs_eq_iff {s t : State} : regs s = regs t ↔ s.state = t.state ∧ s.entQ = t.entQ ∧ s.csQ = t.csQ := by
  simp only [regs, Regs.mk.injEq]

/-- The outputs see the registers alone: neither the inputs to come, nor the engine's side, nor the history. -/
theorem outputs_eq_of_regs_eq {s t : State} (h : regs s = regs t) : outputs s = outputs t := by
  obtain ⟨hstate, hent, hcs⟩ := regs_eq_iff.mp h
  exact outputs_congr hstate hent hcs

theorem flags_eq_of_state_eq {s t : State} (h : s.state = t.state) : flags s = flags t := by
  rw [flags_eq, flags_eq, h]

/-- In `IDLE` the block is ready for entropy and offers nothing (R25). -/
theorem flags_of_idle {s : State} (h : s.state = .idle) : flags s = (true, false, false, false, false) := by
  rw [flags_eq, h]
  decide

/-- Settles O20: the equations are `outputs_eq`; the data words see the registers, the flags only `state`; and reset is in `IDLE`. -/
theorem outputsAreMoore : Obligations.OutputsAreMoore :=
  ⟨outputs_eq, fun _ _ => outputs_eq_of_regs_eq, fun _ _ => flags_eq_of_state_eq, flags_of_idle rfl⟩

end Sys2Proof.Machine

/-! ## The state codes (R23, R67) -/

namespace Sys2Proof

/-- A state's code names that state. -/
@[simp] theorem SeqState.ofCode_code (st : SeqState) : SeqState.ofCode st.code = st := by
  cases st <;> decide

/-- Every 2-bit value is the code of the state it names. -/
@[simp] theorem SeqState.code_ofCode : ∀ c : BitVec 2, (SeqState.ofCode c).code = c := by decide

theorem SeqState.code_inj {st st' : SeqState} : st.code = st'.code ↔ st = st' :=
  (Function.LeftInverse.injective SeqState.ofCode_code).eq_iff

/-- Settles O38: the codes are R67's as the model writes them; naming a state and taking its code are inverse. -/
theorem stateCodesAreExact : Obligations.StateCodesAreExact :=
  ⟨rfl, rfl, rfl, rfl, SeqState.ofCode_code, SeqState.code_ofCode⟩

/-! ## The control vector, bit for bit (R71) -/

/-- The state inserted into the line's code, between `rst` and the four handshake inputs (R77). -/
theorem ctlOf_eq_insert (st : SeqState) (i : Inputs) :
    ctlOf st i = (lineCode i).extractLsb' 4 1 ++ st.code ++ (lineCode i).extractLsb' 0 4 := by
  apply BitVec.eq_of_getLsbD_eq
  intro j hj
  simp only [ctlOf, lineCode, BitVec.getLsbD_append, BitVec.getLsbD_extractLsb', BitVec.getLsbD_ofBool]
  interval_cases j <;> simp

/-- The bits of the control vector that are inputs. -/
theorem ctlOf_bits (st : SeqState) (i : Inputs) :
    (ctlOf st i).getLsbD 0 = i.outReady ∧ (ctlOf st i).getLsbD 1 = i.hrespValid ∧ (ctlOf st i).getLsbD 2 = i.hreqReady ∧
      (ctlOf st i).getLsbD 3 = i.inValid ∧ (ctlOf st i).getLsbD 6 = i.rst := by
  simp only [ctlOf, BitVec.getLsbD_append, BitVec.getLsbD_ofBool]
  simp

/-- The bits of the control vector that are the state. -/
theorem ctlOf_stateField (st : SeqState) (i : Inputs) : (ctlOf st i).extractLsb' 4 2 = st.code := by
  apply BitVec.eq_of_getLsbD_eq
  intro j hj
  simp only [ctlOf, BitVec.getLsbD_append, BitVec.getLsbD_extractLsb', BitVec.getLsbD_ofBool]
  interval_cases j <;> simp

/-- The inputs a control vector holds, the data words, which are no part of it, being zero. -/
def inputsOfCtl (c : Ctl) : Inputs :=
  { rst := c.getLsbD 6, inValid := c.getLsbD 3, inEntropy := 0, hreqReady := c.getLsbD 2, hrespValid := c.getLsbD 1,
    hrespDigest := 0, outReady := c.getLsbD 0 }

/-- Each of the 128 control vectors is that of a state and inputs: there is no other (R74). -/
theorem ctlOf_inputsOfCtl : ∀ c : Ctl, ctlOf (SeqState.ofCode (c.extractLsb' 4 2)) (inputsOfCtl c) = c := by decide

theorem exists_ctlOf_eq (c : Ctl) : ∃ st i, ctlOf st i = c := ⟨_, _, ctlOf_inputsOfCtl c⟩

namespace Machine

/-- Settles O37: the bits, the state's field and the insertion are those of `ctlOf`; `select` decodes that vector. -/
theorem controlVectorLayout : Obligations.ControlVectorLayout := by
  intro s
  obtain ⟨hout, hresp, hreq, hin, hrst⟩ := ctlOf_bits s.state (inputsOf s)
  exact ⟨hrst, ctlOf_stateField .., hin, hreq, hresp, hout, ctlOf_eq_insert .., rfl⟩

end Machine

/-! ## The decode table (R73)

Below the row of `RESET` the table has two rows for each state: the one input the state looks at is 1, and the step moves, or it is
0, and the step holds. Said over that pair, the eight rows are one lemma. -/

/-- The bit of the control vector a state looks at when `rst` is 0. -/
def watchedBit : SeqState → Nat
  | .idle => 3
  | .req => 2
  | .wait => 1
  | .done => 0

/-- The handshake input a state looks at when `rst` is 0 (R152). -/
def watchedInput (st : SeqState) (i : Inputs) : Bool :=
  match st with
  | .idle => i.inValid
  | .req => i.hreqReady
  | .wait => i.hrespValid
  | .done => i.outReady

/-- The step a state takes when `rst` is 0, as its input is 1 or 0. -/
def stateStep (st : SeqState) (b : Bool) (e : Ent) (d : Dig) : Instr :=
  match st with
  | .idle => if b then .accept e else .holdIdle
  | .req => if b then .hreq else .holdReq
  | .wait => if b then .hresp d else .holdWait
  | .done => if b then .deliver else .holdDone

/-- The column "mask" of a state's two rows. -/
def rowMask : SeqState → Ctl
  | .idle => 0x78
  | .req => 0x74
  | .wait => 0x72
  | .done => 0x71

/-- The column "match" of a state's two rows. -/
def rowMatch (st : SeqState) (b : Bool) : Ctl :=
  match st, b with
  | .idle, true => 0x08
  | .req, true => 0x14
  | .wait, true => 0x22
  | .done, true => 0x31
  | .idle, false => 0x00
  | .req, false => 0x10
  | .wait, false => 0x20
  | .done, false => 0x30

/-- `rowMatch` and `rowMask` are the match and the mask the model gives the step. -/
theorem stateStep_row (st : SeqState) (b : Bool) (e : Ent) (d : Dig) :
    (stateStep st b e d).ctl = some (rowMatch st b) ∧ (stateStep st b e d).ctlMask = some (rowMask st) := by
  cases st <;> cases b <;> exact ⟨rfl, rfl⟩

theorem ctlOf_getLsbD_watchedBit (st st' : SeqState) (i : Inputs) :
    (ctlOf st i).getLsbD (watchedBit st') = watchedInput st' i := by
  obtain ⟨hout, hresp, hreq, hin, -⟩ := ctlOf_bits st i
  cases st'
  case idle => exact hin
  case req => exact hreq
  case wait => exact hresp
  case done => exact hout

/-- What the mask of R73's first row looks at. -/
theorem and_resetMask_eq_iff : ∀ c : Ctl, c &&& 0x40 = 0x40 ↔ c.getLsbD 6 = true := by decide

/-- What the mask of a state's row looks at: `rst`, the state's field and one handshake input. -/
theorem and_rowMask_eq_iff (c : Ctl) (st : SeqState) (b : Bool) :
    c &&& rowMask st = rowMatch st b ↔
      c.getLsbD 6 = false ∧ c.extractLsb' 4 2 = st.code ∧ c.getLsbD (watchedBit st) = b := by
  cases st <;> cases b <;> revert c <;> decide

theorem ctlOf_selects_iff (st st' : SeqState) (i : Inputs) (b : Bool) :
    ctlOf st i &&& rowMask st' = rowMatch st' b ↔ i.rst = false ∧ st = st' ∧ watchedInput st' i = b := by
  obtain ⟨-, -, -, -, hrst⟩ := ctlOf_bits st i
  rw [and_rowMask_eq_iff, hrst, ctlOf_stateField, SeqState.code_inj, ctlOf_getLsbD_watchedBit]

/-- The match of a row holds the row's own state and input. -/
theorem rowMatch_bits (st : SeqState) (b : Bool) :
    (rowMatch st b).extractLsb' 4 2 = st.code ∧ (rowMatch st b).getLsbD (watchedBit st) = b := by
  cases st <;> cases b <;> decide

/-- The eight steps are told apart by the state and its input, whatever the data words. -/
theorem stateStep_inj {st st' : SeqState} {b b' : Bool} {e : Ent} {d : Dig} :
    stateStep st b e d = stateStep st' b' e d ↔ st = st' ∧ b = b' := by
  refine ⟨fun h => ?_, fun ⟨hst, hb⟩ => by rw [hst, hb]⟩
  obtain ⟨hctl, -⟩ := stateStep_row st b e d
  obtain ⟨hctl', -⟩ := stateStep_row st' b' e d
  have hmatch : rowMatch st b = rowMatch st' b' := Option.some.inj (by rw [← hctl, h, hctl'])
  obtain ⟨hcode, hbit⟩ := rowMatch_bits st b
  obtain ⟨hcode', hbit'⟩ := rowMatch_bits st' b'
  obtain rfl : st = st' := SeqState.code_inj.mp (by rw [← hcode, hmatch, hcode'])
  exact ⟨rfl, by rw [← hbit, hmatch, hbit']⟩

theorem stateStep_ne_reset (st : SeqState) (b : Bool) (e : Ent) (d : Dig) : stateStep st b e d ≠ .reset := by
  cases st <;> cases b <;> exact Instr.noConfusion

theorem decodeCtl_ctlOf_eq_stateStep (st : SeqState) (i : Inputs) (e : Ent) (d : Dig) :
    decodeCtl (ctlOf st i) e d = if i.rst then .reset else stateStep st (watchedInput st i) e d := by
  cases st <;> exact Machine.decodeCtl_ctlOf ..

/-- R73's first row. -/
theorem decodeCtl_eq_reset_iff (c : Ctl) (e : Ent) (d : Dig) : decodeCtl c e d = .reset ↔ c &&& 0x40 = 0x40 := by
  obtain ⟨st, i, rfl⟩ := exists_ctlOf_eq c
  obtain ⟨-, -, -, -, hrst⟩ := ctlOf_bits st i
  rw [and_resetMask_eq_iff, hrst, decodeCtl_ctlOf_eq_stateStep]
  cases i.rst <;> simp [stateStep_ne_reset]

/-- The other eight rows of R73: a state's step is selected exactly under its mask and match. -/
theorem decodeCtl_eq_stateStep_iff (c : Ctl) (e : Ent) (d : Dig) (st : SeqState) (b : Bool) :
    decodeCtl c e d = stateStep st b e d ↔ c &&& rowMask st = rowMatch st b := by
  obtain ⟨st', i, rfl⟩ := exists_ctlOf_eq c
  rw [ctlOf_selects_iff, decodeCtl_ctlOf_eq_stateStep]
  cases i.rst with
  | true => simp [(stateStep_ne_reset st b e d).symm]
  | false =>
    simp only [Bool.false_eq_true, if_false, stateStep_inj, true_and]
    exact and_congr_right fun h => by rw [h]

/-- Settles O36: the row of `RESET`, then the row of each state and value of its input, in R73's order. -/
theorem stepDecodeTable : Obligations.StepDecodeTable := by
  intro c e d
  have row := decodeCtl_eq_stateStep_iff c e d
  exact ⟨decodeCtl_eq_reset_iff c e d, row .idle true, row .req true, row .wait true, row .done true, row .idle false,
    row .req false, row .wait false, row .done false⟩

end Sys2Proof

/-! ## From entropy to checksum: `MSG`, `TRUNC8` and `CSUM` (R90 to R92) -/

namespace Sys2Proof.Machine

/-- The operations without bytes are exactly the datapath operations (R72). -/
theorem encode_eq_none_iff {i : Instr} : Sys2Proof.encode i = none ↔ i.kind = .datapath := by
  rw [Sys2Proof.encode, Option.map_eq_none_iff]
  cases i <;> simp [Instr.ctl, Instr.kind]

/-- Bit 7 of the checksum is the digest's first bit, bit 0 its eighth. -/
theorem trunc8_getLsbD_eq_seqAt (d : Dig) {b : Nat} (hb : b < 8) : (trunc8 d).getLsbD (7 - b) = seqAt d b := by
  have hlow : 7 - b < 8 := by omega
  have hpos : 248 + (7 - b) = 256 - 1 - b := by omega
  rw [trunc8_getLsbD, decide_eq_true hlow, Bool.true_and, hpos, seqAt]

/-- The first eight digest bits determine the checksum and are determined by it. -/
theorem trunc8_eq_iff {d d' : Dig} : trunc8 d = trunc8 d' ↔ ∀ b < 8, seqAt d b = seqAt d' b := by
  constructor
  · intro h b hb
    rw [← trunc8_getLsbD_eq_seqAt d hb, ← trunc8_getLsbD_eq_seqAt d' hb, h]
  · intro h
    apply BitVec.eq_of_getLsbD_eq
    intro i hi
    obtain ⟨b, hb, rfl⟩ : ∃ b < 8, i = 7 - b := ⟨7 - i, by omega, by omega⟩
    rw [trunc8_getLsbD_eq_seqAt d hb, trunc8_getLsbD_eq_seqAt d' hb, h b hb]

/-- A digest is cut between its first byte and the 248 bits that do not count. -/
@[simp] theorem trunc8_append (v : Cs) (rest : BitVec 248) : trunc8 (v ++ rest) = v :=
  BitVec.extractLsb'_append_eq_left

/-- The checksum is the first byte of the digest of the entropy itself: `MSG` changes nothing on the way to `HASH`. -/
theorem csum_eq (hash : Ent → Dig) (ent : Ent) : csum hash ent = (hash ent).extractLsb' 248 8 := by
  rw [csum, msg, trunc8_eq]

/-- Settles O3: each result is got from the digest with that first byte and zeros below it. -/
theorem trunc8IsTheFirstByte : Obligations.Trunc8IsTheFirstByte := by
  refine ⟨fun d s => ?_, fun _ => encode_eq_none_iff.mpr rfl, fun d => ⟨trunc8_eq d, fun _ hb => trunc8_getLsbD_eq_seqAt d hb⟩,
    fun _ _ => trunc8_eq_iff.mpr, fun v => ⟨v ++ (0 : BitVec 248), trunc8_append v 0⟩, by decide⟩
  rw [← trunc8_eq]
  exact exec_of_datapathResult rfl s

/-- Settles O2: `MSG` is the identity, so its bytes are the operand's. -/
theorem msgIsTheEntropy : Obligations.MsgIsTheEntropy :=
  ⟨fun _ s => exec_of_datapathResult rfl s, fun _ => encode_eq_none_iff.mpr rfl, fun _ => ⟨rfl, fun _ _ => rfl⟩,
    by decide, by decide⟩

/-- Settles O4: `csum_eq` for the machine's own hash and for every hash; the example is then the first byte of the digest it names. -/
theorem csumIsTheFirstDigestByte : Obligations.CsumIsTheFirstDigestByte := by
  refine ⟨fun ent s => ?_, fun _ => encode_eq_none_iff.mpr rfl, fun hash ent => ⟨rfl, csum_eq hash ent⟩, fun hash hzero => ?_⟩
  · rw [← csum_eq]
    exact exec_of_datapathResult rfl s
  · rw [csum_eq, hzero]
    decide

end Sys2Proof.Machine

/-! ## Entropy above checksum: `BCAT` (R100) -/

namespace Sys2Proof.Machine

theorem bcat_getLsbD_entropy (ent : Ent) (cs : Cs) (i : Nat) : (bcat ent cs).getLsbD (i + 8) = ent.getLsbD i := by
  rw [bcat_getLsbD, if_neg (by omega), Nat.add_sub_cancel]

theorem bcat_getLsbD_checksum (ent : Ent) (cs : Cs) {i : Nat} (hi : i < 8) :
    (bcat ent cs).getLsbD i = cs.getLsbD i := by
  rw [bcat_getLsbD, if_pos hi]

/-- The sequence begins with the entropy's, the first bit first. -/
theorem seqAt_bcat_entropy (ent : Ent) (cs : Cs) {p : Nat} (hp : p < 256) : seqAt (bcat ent cs) p = seqAt ent p := by
  have hpos : 264 - 1 - p = 256 - 1 - p + 8 := by omega
  rw [seqAt, seqAt, hpos, bcat_getLsbD_entropy]

/-- The sequence ends with the checksum's: its first bit follows the entropy's last. -/
theorem seqAt_bcat_checksum (ent : Ent) (cs : Cs) {b : Nat} (hb : b < 8) :
    seqAt (bcat ent cs) (256 + b) = seqAt cs b := by
  have hpos : 264 - 1 - (256 + b) = 8 - 1 - b := by omega
  have hlow : 8 - 1 - b < 8 := by omega
  rw [seqAt, seqAt, hpos, bcat_getLsbD_checksum ent cs hlow]

/-- Settles O5: each field bit by bit and by sequence position, then the number by `bcat_toNat`; the example is a closed word. -/
theorem bcatIsEntropyThenChecksum : Obligations.BcatIsEntropyThenChecksum := by
  refine ⟨fun _ _ s => exec_of_datapathResult rfl s, fun _ _ => encode_eq_none_iff.mpr rfl, fun ent cs => ?_, by decide⟩
  exact ⟨fun i _ => bcat_getLsbD_entropy ent cs i, fun _ hi => bcat_getLsbD_checksum ent cs hi,
    fun _ hp => seqAt_bcat_entropy ent cs hp, fun _ hb => seqAt_bcat_checksum ent cs hb, bcat_toNat ent cs⟩

end Sys2Proof.Machine

/-! ## The 24 groups: `SLICE`, `SLICE.0` to `SLICE.23` and `FLAT` (R110, R112, R115 to R138) -/

namespace Sys2Proof.Machine

/-- `slice_getElem` for an index that carries its bound. -/
theorem slice_getElem_fin (comb : Comb) (k : Fin 24) : (slice comb)[k] = comb.extractLsb' (253 - 11 * k.val) 11 :=
  slice_getElem comb k k.isLt

/-- The first bit of group `k` is its heaviest. -/
theorem group_getLsbD_eq_seqAt (comb : Comb) (k : Fin 24) {b : Nat} (hb : b < 11) :
    (comb.extractLsb' (253 - 11 * k.val) 11).getLsbD (10 - b) = seqAt comb (11 * k.val + b) := by
  have hlow : 10 - b < 11 := by omega
  have hpos : 253 - 11 * k.val + (10 - b) = 264 - 1 - (11 * k.val + b) := by omega
  rw [BitVec.getLsbD_extractLsb', decide_eq_true hlow, Bool.true_and, hpos, seqAt]

/-- Settles O7: each index is its group, whose bits are `group_getLsbD_eq_seqAt`; the three examples are closed words. -/
theorem sliceCutsConsecutiveGroups : Obligations.SliceCutsConsecutiveGroups := by
  refine ⟨fun _ s => exec_of_datapathResult rfl s, fun _ => encode_eq_none_iff.mpr rfl, fun comb k => ?_, by decide, by decide,
    by decide⟩
  rw [slice_getElem_fin]
  refine ⟨rfl, fun _ hb => group_getLsbD_eq_seqAt comb k hb, ?_⟩
  rw [BitVec.extractLsb'_toNat, Nat.shiftRight_eq_div_pow]

/-- A field inside an all-one word is all ones. -/
theorem allOnes_extractLsb' {w lo n : Nat} (h : lo + n ≤ w) :
    (BitVec.allOnes w).extractLsb' lo n = BitVec.allOnes n := by
  apply BitVec.eq_of_getLsbD_eq
  intro i hi
  have hin : lo + i < w := by omega
  rw [BitVec.getLsbD_extractLsb', BitVec.getLsbD_allOnes, BitVec.getLsbD_allOnes, decide_eq_true hin, Bool.and_true]

/-- An operation whose result is group `k` meets what R115 to R138 have in common. The rules' numbers are functions of `k`: the
group's low bit, the bytes its sequence positions begin and end in, and the offset in the first of them. -/
theorem groupRule_of_result {op : Comb → Instr} {k : Fin 24}
    (hop : ∀ comb, datapathResult (op comb) = some (.index k (comb.extractLsb' (253 - 11 * k.val) 11))) :
    GroupRule op k (253 - 11 * k.val) (11 * k.val / 8) ((11 * k.val + 10) / 8) (11 * k.val % 8) := by
  have hkind (comb : Comb) : (op comb).kind = .datapath := (kind_eq_datapath_iff _).mpr ⟨_, hop comb⟩
  have hinside : 253 - 11 * k.val + 11 ≤ 264 := by omega
  exact ⟨fun comb s => exec_of_datapathResult (hop comb) s, fun comb => encode_eq_none_iff.mpr (hkind comb),
    fun comb => slice_getElem_fin comb k, fun comb _ hb => group_getLsbD_eq_seqAt comb k hb, (Nat.div_add_mod _ 8).symm,
    Nat.mod_lt _ (by decide), rfl, BitVec.extractLsb'_zero, allOnes_extractLsb' hinside⟩

/-- A field above the checksum is a field of the entropy, 8 bits lower there (R69). -/
theorem entropyGroup_of_example {entLo : Nat} {example5 : Idx} (hexample : entropyV5.extractLsb' entLo 11 = example5) :
    EntropyGroup (entLo + 8) entLo example5 := by
  have hfield (ent : Ent) (cs : Cs) : (bcat ent cs).extractLsb' (entLo + 8) 11 = ent.extractLsb' entLo 11 :=
    extract_bcat_high ent cs (entLo + 8) 11 (Nat.le_add_left 8 entLo)
  exact ⟨hfield, fun cs => (hfield entropyV5 cs).trans hexample⟩

/-- What each of R115 to R137 says, from the two facts that are its own: which group the operation gives, and what that group is in
the fifth vector. -/
theorem entropySliceRule (k : Fin 23) {op : Comb → Instr} {example5 : Idx}
    (hop : ∀ comb, datapathResult (op comb) = some (.index k.castSucc (comb.extractLsb' (253 - 11 * k.val) 11)))
    (hexample : entropyV5.extractLsb' (245 - 11 * k.val) 11 = example5) :
    GroupRule op k.castSucc (253 - 11 * k.val) (11 * k.val / 8) ((11 * k.val + 10) / 8) (11 * k.val % 8) ∧
      EntropyGroup (253 - 11 * k.val) (245 - 11 * k.val) example5 := by
  have hlo : 253 - 11 * k.val = 245 - 11 * k.val + 8 := by omega
  refine ⟨groupRule_of_result hop, ?_⟩
  rw [hlo]
  exact entropyGroup_of_example hexample

/-- Settles O8: twelve uses of `entropySliceRule`. -/
theorem sliceGroups0To11 : Obligations.SliceGroups0To11 :=
  ⟨entropySliceRule 0 (fun _ => rfl) (by decide), entropySliceRule 1 (fun _ => rfl) (by decide),
    entropySliceRule 2 (fun _ => rfl) (by decide), entropySliceRule 3 (fun _ => rfl) (by decide),
    entropySliceRule 4 (fun _ => rfl) (by decide), entropySliceRule 5 (fun _ => rfl) (by decide),
    entropySliceRule 6 (fun _ => rfl) (by decide), entropySliceRule 7 (fun _ => rfl) (by decide),
    entropySliceRule 8 (fun _ => rfl) (by decide), entropySliceRule 9 (fun _ => rfl) (by decide),
    entropySliceRule 10 (fun _ => rfl) (by decide), entropySliceRule 11 (fun _ => rfl) (by decide)⟩

/-- Bits above a checksum, as one number. -/
theorem append_checksum_toNat {w : Nat} (x : BitVec w) (cs : Cs) : (x ++ cs).toNat = 256 * x.toNat + cs.toNat := by
  rw [BitVec.toNat_append, ← Nat.shiftLeft_add_eq_or_of_lt cs.isLt, Nat.shiftLeft_eq, Nat.mul_comm]

/-- Settles O9: eleven uses of `entropySliceRule`; the last group holds the checksum, and its value is that of
`extract_bcat_low`. -/
theorem sliceGroups12To23 : Obligations.SliceGroups12To23 := by
  refine ⟨entropySliceRule 12 (fun _ => rfl) (by decide), entropySliceRule 13 (fun _ => rfl) (by decide),
    entropySliceRule 14 (fun _ => rfl) (by decide), entropySliceRule 15 (fun _ => rfl) (by decide),
    entropySliceRule 16 (fun _ => rfl) (by decide), entropySliceRule 17 (fun _ => rfl) (by decide),
    entropySliceRule 18 (fun _ => rfl) (by decide), entropySliceRule 19 (fun _ => rfl) (by decide),
    entropySliceRule 20 (fun _ => rfl) (by decide), entropySliceRule 21 (fun _ => rfl) (by decide),
    entropySliceRule 22 (fun _ => rfl) (by decide), groupRule_of_result fun _ => rfl, fun ent cs => ?_, ?_⟩
  · rw [extract_bcat_low]
    exact ⟨rfl, append_checksum_toNat _ cs⟩
  · rw [extract_bcat_low]
    decide

/-- `FLAT` field by field. -/
theorem flat_extractLsb' (idx : Indices) (k : Fin 24) : (flat idx).extractLsb' (253 - 11 * k.val) 11 = idx[k] := by
  apply BitVec.eq_of_getLsbD_eq
  intro i hi
  have hpos : 253 - 11 * k.val + i = 11 * (23 - k.val) + i := by omega
  have hback : 23 - (23 - k.val) = k.val := by omega
  have hlow : 23 - k.val < 24 := by omega
  rw [BitVec.getLsbD_extractLsb', decide_eq_true hi, Bool.true_and, hpos, flat_getLsbD idx _ i hlow hi]
  simp only [hback, Fin.getElem_fin]

/-- Settles O10: `flat_extractLsb'`; the example is a closed word. -/
theorem flatPlacesTheIndices : Obligations.FlatPlacesTheIndices :=
  ⟨fun _ s => exec_of_datapathResult rfl s, fun _ => encode_eq_none_iff.mpr rfl, flat_extractLsb', by decide⟩

end Sys2Proof.Machine

/-! ## The top: `ENCODE` (R149) -/

namespace Sys2Proof.Machine

/-- The first 23 groups lie above the checksum (R69). -/
theorem slice_bcat_entropy (ent : Ent) (cs : Cs) {k : Fin 24} (hk : k.val ≤ 22) :
    (slice (bcat ent cs))[k] = ent.extractLsb' (245 - 11 * k.val) 11 := by
  have habove : 8 ≤ 253 - 11 * k.val := by omega
  have hlo : 253 - 11 * k.val - 8 = 245 - 11 * k.val := by omega
  rw [slice_getElem_fin, extract_bcat_high ent cs _ 11 habove, hlo]

/-- The last group is the entropy's last three bits above the whole checksum (R69). -/
theorem slice_bcat_last (ent : Ent) (cs : Cs) : (slice (bcat ent cs))[23] = ent.extractLsb' 0 3 ++ cs :=
  (slice_getElem _ 23 (by decide)).trans (extract_bcat_low ent cs)

/-- Settles O15: the hash reaches the last group alone, through `csum_eq`; with its checksum known, the example is a closed word. -/
theorem encodeIsSliceOfBcat : Obligations.EncodeIsSliceOfBcat := by
  refine ⟨fun _ s => exec_of_datapathResult rfl s, fun _ => encode_eq_none_iff.mpr rfl, fun hash ent => ⟨rfl, fun k hk => ?_, ?_⟩,
    fun hash hzero => ?_⟩
  · exact slice_bcat_entropy ent _ hk
  · rw [encodeWith, slice_bcat_last, csum_eq]
  · rw [encodeWith, hzero]
    decide

end Sys2Proof.Machine

/-! ## The transition relation of `state` (R152) -/

namespace Sys2Proof

/-- The state that follows in a transaction. -/
def SeqState.succ : SeqState → SeqState
  | .idle => .req
  | .req => .wait
  | .wait => .done
  | .done => .idle

/-- The value of `state` after an edge: `rst` first; then a state moves on when its watched input is 1 and stays when it is 0. -/
def nextSeqState (st : SeqState) (i : Inputs) : SeqState :=
  if i.rst then .idle else if watchedInput st i then st.succ else st

/-- The input a state watches, in the line's code, where it has the place it has in the control vector. -/
theorem lineCode_getLsbD_watchedBit (st : SeqState) (i : Inputs) :
    (lineCode i).getLsbD (watchedBit st) = watchedInput st i := by
  obtain ⟨hout, hresp, hreq, hin, -⟩ := lineCode_bits i
  cases st
  case idle => exact hin
  case req => exact hreq
  case wait => exact hresp
  case done => exact hout

/-- The next state sees five input bits and no data word. -/
theorem nextSeqState_congr (st : SeqState) {i i' : Inputs} (h : lineCode i = lineCode i') :
    nextSeqState st i = nextSeqState st i' := by
  obtain ⟨-, -, -, -, hrst⟩ := lineCode_bits i
  obtain ⟨-, -, -, -, hrst'⟩ := lineCode_bits i'
  rw [nextSeqState, nextSeqState, ← hrst, ← hrst', ← lineCode_getLsbD_watchedBit, ← lineCode_getLsbD_watchedBit, h]

namespace Machine

/-- An edge takes `state` to `nextSeqState`: the step selected in each case writes that value, or writes none. -/
theorem step_state {s t : State} (h : step s = .next t) : t.state = nextSeqState s.state (inputsOf s) := by
  rcases step_cases h with ⟨hrst, -, rfl⟩ | ⟨hrst, hrow⟩
  · simp [nextSeqState, hrst]
  · rcases hrow with ⟨hst, hin, -, rfl⟩ | ⟨hst, hin, -, rfl⟩ | ⟨hst, hin, -, rfl⟩ | ⟨hst, hin, -, rfl⟩ |
      ⟨hst, hin, -, rfl⟩ | ⟨hst, hin, -, rfl⟩ | ⟨hst, hin, -, rfl⟩ | ⟨hst, hin, -, rfl⟩ <;>
      simp [nextSeqState, watchedInput, SeqState.succ, hrst, hst, hin]

/-- Settles O30: row by row, `select_eq` names the step and `step_state` the state it leads to; of the inputs `nextSeqState` sees
the handshakes alone. -/
theorem transitionRelation : Obligations.TransitionRelation := by
  constructor
  · intro s t h
    rw [select_eq, step_state h]
    obtain ⟨rst, inValid, _, hreqReady, hrespValid, _, outReady⟩ := inputsOf s
    cases rst with
    | true => exact ⟨rfl, rfl⟩
    | false =>
      cases s.state with
      | idle => cases inValid <;> exact ⟨rfl, rfl⟩
      | req => cases hreqReady <;> exact ⟨rfl, rfl⟩
      | wait => cases hrespValid <;> exact ⟨rfl, rfl⟩
      | done => cases outReady <;> exact ⟨rfl, rfl⟩
  · intro s s' t t' hst hhs h h'
    rw [step_state h, step_state h', hst, nextSeqState_congr s'.state hhs]

end Machine

end Sys2Proof

/-! ## Totality: no fault and no refusal (R190, R206) -/

namespace Sys2Proof.Machine

/-- Settles O32: `exec_next` for the operations, `step_next` for the edges; the third part is the empty case split on `Fault`. -/
theorem everyOperationCompletes : Obligations.EveryOperationCompletes :=
  ⟨exec_next, step_next, nofun⟩

end Sys2Proof.Machine

/-! ## One edge: which step, and what it leaves (R152, R156) -/

namespace Sys2Proof.Machine

/-- The step of an edge: `RESET` under `rst`, else the watched input moves the state or holds it. -/
theorem select_eq_stateStep (s : State) :
    select s = if (inputsOf s).rst then .reset
      else stateStep s.state (watchedInput s.state (inputsOf s)) (inputsOf s).inEntropy (inputsOf s).hrespDigest :=
  decodeCtl_ctlOf_eq_stateStep ..

theorem select_of_rst {s : State} (hrst : (inputsOf s).rst = true) : select s = .reset := by
  rw [select_eq_stateStep, hrst, if_pos rfl]

theorem select_of_not_rst {s : State} (hrst : (inputsOf s).rst = false) :
    select s =
      stateStep s.state (watchedInput s.state (inputsOf s)) (inputsOf s).inEntropy (inputsOf s).hrespDigest := by
  rw [select_eq_stateStep, hrst, if_neg Bool.false_ne_true]

/-- A state whose watched input is 0 takes one of the four `HOLD` patterns. -/
theorem isHold_stateStep_false (st : SeqState) (e : Ent) (d : Dig) : isHold (stateStep st false e d) = true := by
  cases st <;> rfl

/-- The four `HOLD` patterns are the only steps that hold. -/
theorem isHold_iff {i : Instr} : isHold i = true ↔ i = .holdIdle ∨ i = .holdReq ∨ i = .holdWait ∨ i = .holdDone := by
  simp [isHold, or_assoc]

/-- `HOLD` completes and changes nothing (R148). -/
theorem exec_of_isHold {i : Instr} (hi : isHold i = true) (s : State) : exec i s = .next s := by
  obtain rfl | rfl | rfl | rfl := isHold_iff.mp hi <;> rfl

/-- An edge runs the step selected and ends. -/
theorem step_of_select {s t : State} {i : Instr} (hsel : select s = i) (hexec : exec i s = .next t) :
    step s = .next (endEdge t) := by
  rw [step, hsel, hexec, endEdgeOf]

/-! Each step under its condition, with the whole next state. -/

theorem step_reset {s : State} (hrst : (inputsOf s).rst = true) : step s = .next (endEdge (resetAll s)) :=
  step_of_select (select_of_rst hrst) rfl

theorem select_of_watched {s : State} {st : SeqState} {b : Bool} (hrst : (inputsOf s).rst = false) (hst : s.state = st)
    (hin : watchedInput st (inputsOf s) = b) :
    select s = stateStep st b (inputsOf s).inEntropy (inputsOf s).hrespDigest := by
  rw [select_of_not_rst hrst, hst, hin]

theorem step_accept {s : State} (hrst : (inputsOf s).rst = false) (hst : s.state = .idle)
    (hin : (inputsOf s).inValid = true) :
    step s = .next (endEdge (goTo .req (captureEntropy (inputsOf s).inEntropy s))) :=
  step_of_select (select_of_watched hrst hst hin) rfl

theorem step_hreq {s : State} (hrst : (inputsOf s).rst = false) (hst : s.state = .req)
    (hin : (inputsOf s).hreqReady = true) : step s = .next (endEdge (goTo .wait (recordRequest s))) :=
  step_of_select (select_of_watched hrst hst hin) rfl

theorem step_hresp {s : State} (hrst : (inputsOf s).rst = false) (hst : s.state = .wait)
    (hin : (inputsOf s).hrespValid = true) :
    step s = .next (endEdge (goTo .done (dropRequest (captureChecksum (inputsOf s).hrespDigest s)))) :=
  step_of_select (select_of_watched hrst hst hin) rfl

theorem step_deliver {s : State} (hrst : (inputsOf s).rst = false) (hst : s.state = .done)
    (hin : (inputsOf s).outReady = true) : step s = .next (endEdge (goTo .idle (zeroise (handOver s)))) :=
  step_of_select (select_of_watched hrst hst hin) rfl

theorem step_hold {s : State} (hrst : (inputsOf s).rst = false) (hin : watchedInput s.state (inputsOf s) = false) :
    step s = .next (endEdge s) :=
  step_of_select (select_of_watched hrst rfl hin) (exec_of_isHold (isHold_stateStep_false ..) s)

/-- Every edge, its step and the state it leads to: `step_cases` with a name for each case and the four `HOLD` patterns in one. -/
inductive Edge (s : State) : Instr → State → Prop where
  /-- `rst` is 1, whatever else is (R142). -/
  | reset (hrst : (inputsOf s).rst = true) : Edge s .reset (endEdge (resetAll s))
  /-- `IDLE` with `in_valid` (R143). -/
  | accept (hrst : (inputsOf s).rst = false) (hst : s.state = .idle) (hin : (inputsOf s).inValid = true) :
    Edge s (.accept (inputsOf s).inEntropy) (endEdge (goTo .req (captureEntropy (inputsOf s).inEntropy s)))
  /-- `REQ` with `hreq_ready` (R144). -/
  | hreq (hrst : (inputsOf s).rst = false) (hst : s.state = .req) (hin : (inputsOf s).hreqReady = true) :
    Edge s .hreq (endEdge (goTo .wait (recordRequest s)))
  /-- `WAIT` with `hresp_valid` (R145). -/
  | hresp (hrst : (inputsOf s).rst = false) (hst : s.state = .wait) (hin : (inputsOf s).hrespValid = true) :
    Edge s (.hresp (inputsOf s).hrespDigest)
      (endEdge (goTo .done (dropRequest (captureChecksum (inputsOf s).hrespDigest s))))
  /-- `DONE` with `out_ready` (R146). -/
  | deliver (hrst : (inputsOf s).rst = false) (hst : s.state = .done) (hin : (inputsOf s).outReady = true) :
    Edge s .deliver (endEdge (goTo .idle (zeroise (handOver s))))
  /-- The state's watched input is 0 (R148). -/
  | hold {i : Instr} (hrst : (inputsOf s).rst = false) (hin : watchedInput s.state (inputsOf s) = false)
      (hi : isHold i = true) : Edge s i (endEdge s)

/-- Every edge has a case: `rst`, or else a state and the value of its watched input. -/
theorem edge_select (s : State) : ∃ t, step s = .next t ∧ Edge s (select s) t := by
  cases hrst : (inputsOf s).rst with
  | true =>
    have hsel := select_of_rst hrst
    exact ⟨_, step_reset hrst, hsel ▸ .reset hrst⟩
  | false =>
    have hsel := select_of_not_rst hrst
    cases hin : watchedInput s.state (inputsOf s) with
    | false =>
      rw [hin] at hsel
      have hhold := isHold_stateStep_false s.state (inputsOf s).inEntropy (inputsOf s).hrespDigest
      exact ⟨_, step_hold hrst hin, hsel ▸ .hold hrst hin hhold⟩
    | true =>
      rw [hin] at hsel
      cases hst : s.state with
      | idle => rw [hst] at hsel hin; exact ⟨_, step_accept hrst hst hin, hsel ▸ .accept hrst hst hin⟩
      | req => rw [hst] at hsel hin; exact ⟨_, step_hreq hrst hst hin, hsel ▸ .hreq hrst hst hin⟩
      | wait => rw [hst] at hsel hin; exact ⟨_, step_hresp hrst hst hin, hsel ▸ .hresp hrst hst hin⟩
      | done => rw [hst] at hsel hin; exact ⟨_, step_deliver hrst hst hin, hsel ▸ .deliver hrst hst hin⟩

/-- The case of an edge whose next state is known; the step has a name of its own, for `cases` to fill in. -/
theorem edge_of_step {s t : State} (h : step s = .next t) : ∃ i, select s = i ∧ Edge s i t := by
  obtain ⟨u, hu, hedge⟩ := edge_select s
  obtain rfl : u = t := Host.Outcome.next.inj (hu.symm.trans h)
  exact ⟨_, rfl, hedge⟩

/-! ## The invariant of R33 -/

theorem transportInv_of_idle {s : State} (h : s.state = .idle) :
    TransportInv s ↔ s.entQ = 0 ∧ s.csQ = 0 ∧ s.hq = none := by
  simp +contextual [TransportInv, h, and_assoc]

theorem transportInv_of_req {s : State} (h : s.state = .req) : TransportInv s ↔ s.csQ = 0 ∧ s.hq = none := by
  simp +contextual [TransportInv, h]

theorem transportInv_of_wait {s : State} (h : s.state = .wait) :
    TransportInv s ↔ s.csQ = 0 ∧ s.hq = some s.entQ := by
  simp [TransportInv, h]

theorem transportInv_of_done {s : State} (h : s.state = .done) : TransportInv s ↔ s.hq = none := by
  simp +contextual [TransportInv, h]

/-- The invariant reads the registers and `hq` alone, so it does not see what the environment drives. -/
theorem transportInv_drive {s : State} {i : Inputs} : TransportInv (s.drive i) ↔ TransportInv s := Iff.rfl

/-- Settles O44: each step that moves the state finds there what its own state held, and leaves what the next one holds. -/
theorem stepKeepsTransportInv : Obligations.StepKeepsTransportInv := by
  intro s t hinv h
  obtain ⟨_, -, hedge⟩ := edge_of_step h
  cases hedge with
  | reset => exact (transportInv_of_idle rfl).mpr ⟨rfl, rfl, rfl⟩
  | accept _ hst _ =>
    obtain ⟨-, hcs, hhq⟩ := (transportInv_of_idle hst).mp hinv
    exact (transportInv_of_req rfl).mpr ⟨hcs, hhq⟩
  | hreq _ hst _ =>
    obtain ⟨hcs, -⟩ := (transportInv_of_req hst).mp hinv
    exact (transportInv_of_wait rfl).mpr ⟨hcs, congrArg some (hreqMsg_of_req hst)⟩
  | hresp => exact (transportInv_of_done rfl).mpr rfl
  | deliver _ hst _ => exact (transportInv_of_idle rfl).mpr ⟨rfl, rfl, (transportInv_of_done hst).mp hinv⟩
  | hold => exact hinv

/-- What R33 asks beyond the engine-independent part is the checksum: the bus is then the mnemonic. -/
theorem transactionInv_iff {s : State} :
    TransactionInv s ↔ TransportInv s ∧ (s.state = .done → s.csQ = machineCsum s.entQ) := by
  refine and_congr_right fun _ => ⟨fun h hst => (h hst).1, fun h hst => ⟨h hst, ?_⟩⟩
  rw [outIdxFlat_of_done hst, h hst]
  rfl

theorem transactionInv_of_not_done {s : State} (hinv : TransportInv s) (hst : s.state ≠ .done) : TransactionInv s :=
  ⟨hinv, fun h => absurd h hst⟩

/-- The value duty in `WAIT`, where the pending message is the entropy: the digest's first byte is its checksum. -/
theorem trunc8_digest_of_duty {s : State} (hinv : TransportInv s) (hduty : EngineDuty s) (hst : s.state = .wait)
    (hin : (inputsOf s).hrespValid = true) : trunc8 (inputsOf s).hrespDigest = machineCsum s.entQ := by
  obtain ⟨-, hhq⟩ := (transportInv_of_wait hst).mp hinv
  rw [hduty.2 s.entQ hin hhq]
  rfl

/-- Settles O45: `DONE` is entered by `HRESP` alone, where the engine's duty gives the checksum, and kept by `HOLD`. -/
theorem stepKeepsTransactionInv : Obligations.StepKeepsTransactionInv := by
  intro s t hinv hduty h
  have ht : TransportInv t := stepKeepsTransportInv s t hinv.1 h
  obtain ⟨_, -, hedge⟩ := edge_of_step h
  cases hedge with
  | reset | accept | hreq | deliver => exact transactionInv_of_not_done ht nofun
  | hresp _ hst hin =>
    exact transactionInv_iff.mpr ⟨ht, fun _ => trunc8_digest_of_duty hinv.1 hduty hst hin⟩
  | hold => exact hinv

/-- Settles O43: in `IDLE` with everything zero the invariant asks nothing more. -/
theorem resetMeetsTheInvariant : Obligations.ResetMeetsTheInvariant := by
  have atReset (s : State) (hregs : regs s = regs State.reset) (hhq : s.hq = none) : TransactionInv s := by
    obtain ⟨hst, hent, hcs⟩ := regs_eq_iff.mp hregs
    exact transactionInv_of_not_done ((transportInv_of_idle hst).mpr ⟨hent, hcs, hhq⟩) (by rw [hst]; nofun)
  exact ⟨atReset State.reset rfl rfl, atReset⟩

/-- The invariant along a run with an engine that keeps its duties. -/
theorem run_keeps_transactionInv {s t : State} {is : List Instr} (hrun : Run EngineDuty s is t)
    (hinv : TransactionInv s) : TransactionInv t :=
  run_inv stepKeepsTransactionInv hrun hinv

/-- Settles O46: the invariant holds at reset and along the run; its parts are R33's lines. -/
theorem reachedStatesMeetR33 : Obligations.ReachedStatesMeetR33 := by
  intro s₀ s is hregs hhq hrun
  obtain ⟨⟨hidle, hcs, hwait, hnone⟩, hdone⟩ :=
    run_keeps_transactionInv hrun (resetMeetsTheInvariant.2 s₀ hregs hhq)
  exact ⟨hidle, hcs, fun hst => (hdone hst).1, fun hst => (hdone hst).2, hwait, hnone⟩

end Sys2Proof.Machine

/-! ## What an edge does to the registers, the engine and the caller (R156) -/

namespace Sys2Proof.Machine

/-- The caller's record grows by the bus at `xfer(out)` and by nothing else (R157). -/
theorem step_taken {s t : State} (h : step s = .next t) :
    t.taken = if xferOut s (inputsOf s) then s.taken ++ [outIdxFlat s] else s.taken := by
  obtain ⟨_, -, hedge⟩ := edge_of_step h
  cases hedge with
  | reset hrst => simp [xferOut, hrst]
  | accept _ hst | hreq _ hst | hresp _ hst => simp [xferOut, outValid, hst]
  | deliver hrst hst hin => simp [xferOut, outValid, hrst, hst, hin]
  | hold _ hin =>
    have hno : xferOut s (inputsOf s) = false := by
      cases hst : s.state <;> simp_all [xferOut, outValid, watchedInput]
    simp [hno]

/-- The registers after an edge see the registers and the inputs alone (R57). -/
theorem step_regs {s t : State} (h : step s = .next t) :
    regs t =
      if (inputsOf s).rst then ⟨.idle, 0, 0⟩
      else if watchedInput s.state (inputsOf s) then
        match s.state with
        | .idle => ⟨.req, (inputsOf s).inEntropy, s.csQ⟩
        | .req => ⟨.wait, s.entQ, s.csQ⟩
        | .wait => ⟨.done, s.entQ, trunc8 (inputsOf s).hrespDigest⟩
        | .done => ⟨.idle, 0, 0⟩
      else regs s := by
  obtain ⟨_, -, hedge⟩ := edge_of_step h
  cases hedge with
  | reset hrst => simp [hrst, regs]
  | accept hrst hst hin | hreq hrst hst hin | hresp hrst hst hin | deliver hrst hst hin =>
    simp [hrst, hst, hin, watchedInput, regs]
  | hold hrst hin => simp [hrst, hin, regs]

/-- The engine's pending request after an edge (R29). -/
theorem step_hq {s t : State} (h : step s = .next t) :
    t.hq =
      if (inputsOf s).rst then none
      else if xferHreq s (inputsOf s) then some (hreqMsg s)
      else if xferHresp s (inputsOf s) then none
      else s.hq := by
  obtain ⟨_, -, hedge⟩ := edge_of_step h
  cases hedge with
  | reset hrst => simp [hrst]
  | accept hrst hst hin | hreq hrst hst hin | hresp hrst hst hin | deliver hrst hst hin =>
    simp [hrst, hst, hin, xferHreq, xferHresp, hreqValid, hrespReady]
  | hold hrst hin =>
    cases hst : s.state <;> simp_all [xferHreq, xferHresp, hreqValid, hrespReady, watchedInput]

theorem step_probe {s t : State} (h : step s = .next t) : t.probe = s.probe := by
  obtain ⟨_, -, hedge⟩ := edge_of_step h
  cases hedge <;> rfl

/-- Settles O29: the state's watched input is R156's condition; the other fields are one lemma each. -/
theorem stepIsTheStepFunction : Obligations.StepIsTheStepFunction := by
  intro s
  obtain ⟨t, h⟩ := step_next s
  obtain ⟨hstim, hedge⟩ := step_stim h
  refine ⟨t, h, ?_, step_hq h, step_taken h, hstim, hedge, step_probe h, outputs_eq t⟩
  rw [step_regs h]
  cases hst : s.state <;> simp [watchedInput, regs, hst, trunc8_eq]

/-! ## What does not depend on what (R57, R147, R200) -/

/-- Settles O52: both steps write the same constants, and the outputs see the registers alone. -/
theorem erasedEntropyLeavesNoTrace : Obligations.ErasedEntropyLeavesNoTrace := by
  have erased {s t : State} (hsel : select s = .deliver ∨ select s = .reset) (h : step s = .next t) :
      regs t = ⟨.idle, 0, 0⟩ := by
    obtain ⟨i, hi, hedge⟩ := edge_of_step h
    rw [hi] at hsel
    cases hedge with
    | reset | deliver => rfl
    | accept | hreq | hresp => rcases hsel with hsel | hsel <;> cases hsel
    | hold _ _ hhold => rcases hsel with rfl | rfl <;> cases hhold
  intro s s' t t' hsel hsel' h h'
  have ht := erased hsel h
  have hregs : regs t = regs t' := ht.trans (erased hsel' h').symm
  exact ⟨hregs, outputs_eq_of_regs_eq hregs, congrArg Regs.entQ ht, congrArg Regs.csQ ht⟩

/-- What the caller takes depends on data; whether it takes anything does not. -/
theorem step_taken_length {s t : State} (h : step s = .next t) :
    t.taken.length = s.taken.length + (xferOut s (inputsOf s)).toNat := by
  rw [step_taken h]
  cases xferOut s (inputsOf s) <;> simp

/-- Whether a result is taken is seen in the state and the line's code (R49). -/
theorem xferOut_congr {s s' : State} {i i' : Inputs} (hst : s.state = s'.state) (hi : lineCode i = lineCode i') :
    xferOut s i = xferOut s' i' := by
  obtain ⟨hout, -, -, -, hrst⟩ := lineCode_bits i
  obtain ⟨hout', -, -, -, hrst'⟩ := lineCode_bits i'
  rw [xferOut, xferOut, outValid, outValid, hst, ← hout, ← hrst, hi, hout', hrst']

/-- The next line of two stimuli that agree in their handshakes, neither of them used up. -/
theorem handshakes_inputsOf {s s' : State} (hmap : s.stim.map handshakes = s'.stim.map handshakes)
    (hlen : 0 < s.stim.length) : handshakes (inputsOf s) = handshakes (inputsOf s') := by
  cases hs : s.stim with
  | nil => simp [hs] at hlen
  | cons i is =>
    cases hs' : s'.stim with
    | nil => simp [hs, hs'] at hmap
    | cons i' is' =>
      rw [hs, hs'] at hmap
      rw [inputsOf, inputsOf, hs, hs']
      exact (List.cons.inj hmap).1

/-- Settles O53, by induction on the number of edges: `state` sees the handshakes alone, so the next states and stimuli agree again,
and the same edges hand a result over. -/
theorem timingIgnoresData : Obligations.TimingIgnoresData := by
  intro n
  induction n with
  | zero =>
    intro s s' t t' hst _ _ h h'
    cases h
    cases h'
    exact ⟨hst, flags_eq_of_state_eq hst, Nat.add_comm _ _⟩
  | succ n ih =>
    intro s s' t t' hst hmap hlen h h'
    obtain ⟨u, hu, hrun⟩ := core_run_succ h
    obtain ⟨u', hu', hrun'⟩ := core_run_succ h'
    have hhs := handshakes_inputsOf hmap (by omega)
    have hust : u.state = u'.state := by rw [step_state hu, step_state hu', hst, nextSeqState_congr _ hhs]
    have humap : u.stim.map handshakes = u'.stim.map handshakes := by
      rw [(step_stim hu).1, (step_stim hu').1, List.map_drop, List.map_drop, hmap]
    have hulen : n ≤ u.stim.length := by rw [(step_stim hu).1, List.length_drop]; omega
    obtain ⟨hend, hflags, htaken⟩ := ih u u' t t' hust humap hulen hrun hrun'
    rw [step_taken_length hu, step_taken_length hu', xferOut_congr hst hhs] at htaken
    exact ⟨hend, hflags, by omega⟩

theorem inputsOf_congr {s s' : State} (hstim : s.stim = s'.stim) (hedge : s.edge = s'.edge) :
    inputsOf s = inputsOf s' := by
  rw [inputsOf, inputsOf, hstim, hedge]

/-- One edge from equal registers under equal inputs: equal registers, and the same new results. -/
theorem step_congr {s s' t t' : State} (hregs : regs s = regs s') (hin : inputsOf s = inputsOf s')
    (h : step s = .next t) (h' : step s' = .next t') :
    regs t = regs t' ∧ ∃ new, t.taken = s.taken ++ new ∧ t'.taken = s'.taken ++ new := by
  obtain ⟨hst, hent, hcs⟩ := regs_eq_iff.mp hregs
  refine ⟨by rw [step_regs h, step_regs h', hregs, hin, hst, hent, hcs],
    if xferOut s (inputsOf s) then [outIdxFlat s] else [], ?_, ?_⟩
  · rw [step_taken h]
    cases xferOut s (inputsOf s) <;> simp
  · have hbus : outIdxFlat s' = outIdxFlat s := congrArg Outputs.outIdxFlat (outputs_eq_of_regs_eq hregs.symm)
    have hxfer : xferOut s' (inputsOf s') = xferOut s (inputsOf s) := xferOut_congr hst.symm (by rw [hin])
    rw [step_taken h', hxfer, hbus]
    cases xferOut s (inputsOf s) <;> simp

/-- Settles O54, by induction on the number of edges: `step_congr`, and equal stimuli have equal rests. -/
theorem onlyTheRegistersMatter : Obligations.OnlyTheRegistersMatter := by
  intro n
  induction n with
  | zero =>
    intro s s' t t' hregs _ _ h h'
    cases h
    cases h'
    exact ⟨hregs, outputs_eq_of_regs_eq hregs, [], (List.append_nil _).symm, (List.append_nil _).symm⟩
  | succ n ih =>
    intro s s' t t' hregs hstim hedge h h'
    obtain ⟨u, hu, hrun⟩ := core_run_succ h
    obtain ⟨u', hu', hrun'⟩ := core_run_succ h'
    obtain ⟨hustim, huedge⟩ := step_stim hu
    obtain ⟨hustim', huedge'⟩ := step_stim hu'
    obtain ⟨huregs, new, htaken, htaken'⟩ := step_congr hregs (inputsOf_congr hstim hedge) hu hu'
    obtain ⟨hend, hout, rest, hrest, hrest'⟩ := ih u u' t t' huregs (by rw [hustim, hustim', hstim])
      (by rw [huedge, huedge', hedge]) hrun hrun'
    exact ⟨hend, hout, new ++ rest, by rw [hrest, htaken, List.append_assoc],
      by rw [hrest', htaken', List.append_assoc]⟩

end Sys2Proof.Machine

/-! ## Whole transactions (R54, R150) -/

namespace Sys2Proof.Machine

/-- The entropy of the transaction in flight: none in `IDLE`, else what `ent_q` holds. -/
def openEntropy (s : State) : Option Ent := if s.state = .idle then none else some s.entQ

theorem openEntropy_of_idle {s : State} (h : s.state = .idle) : openEntropy s = none := if_pos h

theorem openEntropy_of_busy {s : State} (h : s.state ≠ .idle) : openEntropy s = some s.entQ := if_neg h

theorem pendingAfter_of_isHold {i : Instr} (hi : isHold i = true) (p : Option Ent) : pendingAfter p i = p := by
  obtain rfl | rfl | rfl | rfl := isHold_iff.mp hi <;> rfl

theorem owedAt_of_isHold {i : Instr} (hi : isHold i = true) (p : Option Ent) : owedAt p i = [] := by
  obtain rfl | rfl | rfl | rfl := isHold_iff.mp hi <;> rfl

theorem ne_deliver_of_isHold {i : Instr} (hi : isHold i = true) : i ≠ .deliver := by
  rintro rfl
  cases hi

/-- The bookkeeping of steps follows the register `ent_q`. -/
theorem pendingAfter_openEntropy {s t : State} (h : step s = .next t) :
    pendingAfter (openEntropy s) (select s) = openEntropy t := by
  obtain ⟨i, hi, hedge⟩ := edge_of_step h
  rw [hi]
  cases hedge with
  | reset | accept | deliver => rfl
  | hreq _ hst | hresp _ hst => simp [openEntropy, hst]
  | hold _ _ hhold => exact pendingAfter_of_isHold hhold _

/-- Under the invariant the caller takes at each edge what it is owed, and is owed one result at `DELIVER` and none elsewhere. -/
theorem step_taken_owedAt {s t : State} (hinv : TransactionInv s) (h : step s = .next t) :
    t.taken = s.taken ++ owedAt (openEntropy s) (select s) ∧
      (owedAt (openEntropy s) (select s)).length = [select s].count .deliver := by
  obtain ⟨i, hi, hedge⟩ := edge_of_step h
  rw [hi]
  cases hedge with
  | reset | accept | hreq | hresp => simp
  | deliver _ hst =>
    obtain ⟨-, hbus⟩ := hinv.2 hst
    have hopen : openEntropy s = some s.entQ := openEntropy_of_busy (by rw [hst]; nofun)
    simp [hopen, hbus]
  | hold _ _ hhold => simp [owedAt_of_isHold hhold, ne_deliver_of_isHold hhold]

/-- R150 from any state with the invariant: the run begins with the entropy in flight there. -/
theorem run_taken_owed {s t : State} {is : List Instr} (hrun : Run EngineDuty s is t) (hinv : TransactionInv s) :
    t.taken = s.taken ++ owed (openEntropy s) is ∧ (owed (openEntropy s) is).length = is.count .deliver := by
  induction hrun with
  | nil s => exact ⟨(List.append_nil _).symm, rfl⟩
  | @cons s t u is hduty hstep _ ih =>
    obtain ⟨htaken, hcount⟩ := ih (stepKeepsTransactionInv _ _ hinv hduty hstep)
    obtain ⟨hone, honeCount⟩ := step_taken_owedAt hinv hstep
    rw [owed, pendingAfter_openEntropy hstep, ← List.singleton_append (l := is), List.count_append,
      List.length_append]
    exact ⟨by rw [htaken, hone, List.append_assoc], by rw [honeCount, hcount]⟩

/-- Settles O48: at the reset registers nothing is in flight. -/
theorem resultsAreExactlyThoseOwed : Obligations.ResultsAreExactlyThoseOwed := by
  intro s₀ s is hregs hhq hrun
  obtain ⟨hidle, -, -⟩ := regs_eq_iff.mp hregs
  have hnone : openEntropy s₀ = none := openEntropy_of_idle hidle
  rw [← hnone]
  exact run_taken_owed hrun (resetMeetsTheInvariant.2 s₀ hregs hhq)

/-- Inside a transaction an edge other than `RESET` and `DELIVER` stays inside, and touches neither the entropy nor what was
taken. -/
theorem step_of_busy {s t : State} (h : step s = .next t) (hbusy : s.state ≠ .idle) (hreset : select s ≠ .reset)
    (hdeliver : select s ≠ .deliver) : t.state ≠ .idle ∧ t.entQ = s.entQ ∧ t.taken = s.taken := by
  obtain ⟨i, hi, hedge⟩ := edge_of_step h
  rw [hi] at hreset hdeliver
  cases hedge with
  | reset => exact absurd rfl hreset
  | deliver => exact absurd rfl hdeliver
  | accept _ hst => exact absurd hst hbusy
  | hreq | hresp => exact ⟨nofun, rfl, rfl⟩
  | hold => exact ⟨hbusy, rfl, rfl⟩

theorem run_of_busy {ok : State → Prop} {s t : State} {is : List Instr} (hrun : Run ok s is t) (hbusy : s.state ≠ .idle)
    (hreset : .reset ∉ is) (hdeliver : .deliver ∉ is) : t.state ≠ .idle ∧ t.entQ = s.entQ ∧ t.taken = s.taken := by
  induction hrun with
  | nil => exact ⟨hbusy, rfl, rfl⟩
  | cons _ hstep _ ih =>
    obtain ⟨hreset₁, hresetRest⟩ := not_or.mp (mt List.mem_cons.mpr hreset)
    obtain ⟨hdeliver₁, hdeliverRest⟩ := not_or.mp (mt List.mem_cons.mpr hdeliver)
    obtain ⟨hb, hent, htaken⟩ := step_of_busy hstep hbusy (Ne.symm hreset₁) (Ne.symm hdeliver₁)
    obtain ⟨hb', hent', htaken'⟩ := ih hb hresetRest hdeliverRest
    exact ⟨hb', hent'.trans hent, htaken'.trans htaken⟩

/-- What `ACCEPT` leaves behind, at an edge that selects it. -/
theorem step_of_select_accept {s t : State} {E : Ent} (h : step s = .next t) (hsel : select s = .accept E) :
    t.state = .req ∧ t.entQ = E ∧ t.taken = s.taken := by
  obtain ⟨i, hi, hedge⟩ := edge_of_step h
  rw [hsel] at hi
  cases hedge with
  | accept => exact ⟨rfl, (Instr.accept.inj hi).symm, rfl⟩
  | reset | hreq | hresp | deliver => cases hi
  | hold _ _ hhold => rw [← hi] at hhold; cases hhold

/-- Where `DELIVER` is taken and what it leaves behind. -/
theorem step_of_select_deliver {s t : State} (h : step s = .next t) (hsel : select s = .deliver) :
    s.state = .done ∧ t.taken = s.taken ++ [outIdxFlat s] ∧ regs t = ⟨.idle, 0, 0⟩ := by
  obtain ⟨i, hi, hedge⟩ := edge_of_step h
  rw [hsel] at hi
  cases hedge with
  | deliver _ hst => exact ⟨hst, rfl, rfl⟩
  | reset | accept | hreq | hresp => cases hi
  | hold _ _ hhold => exact absurd hi.symm (ne_deliver_of_isHold hhold)

/-- Settles O47: the accepted entropy is kept until `DELIVER`, where the invariant makes the bus its mnemonic. -/
theorem transactionIsCorrect : Obligations.TransactionIsCorrect := by
  intro s u E mid hinv hrun hreset hdeliver
  obtain ⟨hduty, hsel, a, haccept, hrest⟩ := hrun.cons_inv
  obtain ⟨d, hmid, hlast⟩ := hrest.append_inv
  obtain ⟨hdutyLast, hselLast, v, hstep, hnil⟩ := hlast.cons_inv
  obtain rfl : u = v := hnil.eq_of_nil
  obtain ⟨hreq, hentA, htakenA⟩ := step_of_select_accept haccept hsel
  obtain ⟨-, hentD, htakenD⟩ := run_of_busy hmid (by rw [hreq]; nofun) hreset hdeliver
  have hinvD : TransactionInv d := run_keeps_transactionInv hmid (stepKeepsTransactionInv s a hinv hduty haccept)
  obtain ⟨hdone, htaken, hregs⟩ := step_of_select_deliver hstep hselLast
  obtain ⟨-, hbus⟩ := hinvD.2 hdone
  obtain ⟨-, -, hhq⟩ := (transportInv_of_idle (congrArg Regs.state hregs)).mp (stepKeepsTransportInv d u hinvD.1 hstep)
  exact ⟨by rw [htaken, hbus, htakenD, htakenA, hentD, hentA], hregs, hhq⟩

/-! ## The order of the channels (R54) -/

/-- The steps since the last `ACCEPT` but for `HOLD`. -/
def MovesSinceAccept (is moves : List Instr) : Prop :=
  ∃ before E between, is = before ++ .accept E :: between ∧ between.filter (fun i => !isHold i) = moves

theorem movesSinceAccept_accept (is : List Instr) (E : Ent) : MovesSinceAccept (is ++ [.accept E]) [] :=
  ⟨is, E, [], rfl, rfl⟩

theorem MovesSinceAccept.move {is moves : List Instr} {i : Instr} (h : MovesSinceAccept is moves)
    (hi : isHold i = false) : MovesSinceAccept (is ++ [i]) (moves ++ [i]) := by
  obtain ⟨before, E, between, rfl, rfl⟩ := h
  exact ⟨before, E, between ++ [i], by simp, by simp [hi]⟩

theorem MovesSinceAccept.hold {is moves : List Instr} {i : Instr} (h : MovesSinceAccept is moves)
    (hi : isHold i = true) : MovesSinceAccept (is ++ [i]) moves := by
  obtain ⟨before, E, between, rfl, rfl⟩ := h
  exact ⟨before, E, between ++ [i], by simp, by simp [hi]⟩

/-- What a value of `state` says of the steps taken so far, from `IDLE` on. -/
def ReachedBy (is : List Instr) : SeqState → Prop
  | .idle => True
  | .req => MovesSinceAccept is []
  | .wait => MovesSinceAccept is [.hreq]
  | .done => ∃ D, MovesSinceAccept is [.hreq, .hresp D]

theorem ReachedBy.hold {is : List Instr} {i : Instr} {st : SeqState} (h : ReachedBy is st) (hi : isHold i = true) :
    ReachedBy (is ++ [i]) st := by
  cases st with
  | idle => trivial
  | req | wait => exact MovesSinceAccept.hold h hi
  | done => obtain ⟨D, hD⟩ := h; exact ⟨D, hD.hold hi⟩

theorem reachedBy_step {is : List Instr} {s t : State} (hs : ReachedBy is s.state) (h : step s = .next t) :
    ReachedBy (is ++ [select s]) t.state := by
  obtain ⟨i, hi, hedge⟩ := edge_of_step h
  rw [hi]
  cases hedge with
  | reset | deliver => trivial
  | accept => exact movesSinceAccept_accept is _
  | hreq _ hst => rw [hst] at hs; exact MovesSinceAccept.move hs rfl
  | hresp _ hst => rw [hst] at hs; exact ⟨_, MovesSinceAccept.move hs rfl⟩
  | hold _ _ hhold => exact hs.hold hhold

theorem reachedBy_run {ok : State → Prop} {s t : State} {is : List Instr} (hrun : Run ok s is t) {past : List Instr}
    (hs : ReachedBy past s.state) : ReachedBy (past ++ is) t.state := by
  induction hrun generalizing past with
  | nil => rwa [List.append_nil]
  | cons _ hstep _ ih =>
    rw [← List.singleton_append, ← List.append_assoc]
    exact ih (reachedBy_step hs hstep)

/-- Settles O49: `DELIVER` is taken in `DONE`, and `ReachedBy` says what led there. -/
theorem everyDeliveryHasItsTransaction : Obligations.EveryDeliveryHasItsTransaction := by
  intro s₀ s is hidle hrun
  obtain ⟨d, his, hlast⟩ := hrun.append_inv
  obtain ⟨-, hsel, t, hstep, -⟩ := hlast.cons_inv
  have hstart : ReachedBy [] s₀.state := by rw [hidle]; trivial
  have hreached := reachedBy_run his hstart
  rw [(step_of_select_deliver hstep hsel).1] at hreached
  obtain ⟨D, before, E, between, his, hmoves⟩ := hreached
  exact ⟨before, E, between, D, his, hmoves⟩

/-! ## Fairness (R59, R155, R173) -/

/-- The engine-independent invariant along an infinite run. -/
theorem infiniteRun_transportInv {env : Nat → Inputs} {run : Nat → State} (hrun : InfiniteRun env run)
    (h0 : TransportInv (run 0)) (n : Nat) : TransportInv (run n) := by
  induction n with
  | zero => exact h0
  | succ n ih => exact stepKeepsTransportInv _ _ (transportInv_drive.mpr ih) (hrun n)

/-- Settles O55: an offered request is `REQ`, and by the invariant a pending one is `WAIT`. -/
theorem progressDutyGivesFairness : Obligations.ProgressDutyGivesFairness := by
  intro env run hrun h0 ⟨htakes, hanswers⟩ hdrains
  refine ⟨fun n hst => ?_, fun n hst => ?_, hdrains⟩
  · obtain ⟨m, hm, h⟩ := htakes n (by rw [hreqValid_eq_decide]; exact decide_eq_true hst)
    refine ⟨m, hm, h.imp_right fun hno => ?_⟩
    rwa [hreqValid_eq_decide, decide_eq_false_iff_not] at hno
  · obtain ⟨-, hhq⟩ := (transportInv_of_wait hst).mp (infiniteRun_transportInv hrun h0 n)
    obtain ⟨m, hm, h⟩ := hanswers n (by rw [hhq]; exact Option.some_ne_none _)
    refine ⟨m, hm, h.imp_right fun hno hwait => ?_⟩
    obtain ⟨-, hsome⟩ := (transportInv_of_wait hwait).mp (infiniteRun_transportInv hrun h0 m)
    rw [hno] at hsome
    cases hsome

/-- The three fairness assumptions of R59 as one, over the input a state watches. -/
theorem fair_watched {env : Nat → Inputs} {run : Nat → State} (hfair : Fair env run) {n : Nat}
    (hbusy : (run n).state ≠ .idle) :
    ∃ m, n ≤ m ∧ (watchedInput (run n).state (env m) = true ∨ (run m).state ≠ (run n).state) := by
  obtain ⟨hreq, hwait, hdone⟩ := hfair
  cases hst : (run n).state with
  | idle => exact absurd hst hbusy
  | req => exact hreq n hst
  | wait => exact hwait n hst
  | done => exact hdone n hst

/-- The transaction accepted at edge `n` is open up to cycle `m`. -/
def OpenUntil (run : Nat → State) (n m : Nat) : Prop := ∀ j, n < j → j ≤ m → (run j).state ≠ .idle

theorem OpenUntil.succ {run : Nat → State} {n m : Nat} (h : OpenUntil run n m) (hm : (run (m + 1)).state ≠ .idle) :
    OpenUntil run n (m + 1) := by
  intro j hnj hjm
  rcases Nat.lt_or_eq_of_le hjm with hlt | rfl
  · exact h j hnj (by omega)
  · exact hm

/-- No reset while the transaction accepted at edge `n` is open. -/
def Undisturbed (env : Nat → Inputs) (run : Nat → State) (n : Nat) : Prop :=
  ∀ r, n < r → OpenUntil run n r → (env r).rst = false

/-- A busy state with its input still 0 is the same at the next cycle, the entropy too. -/
theorem infiniteRun_hold {env : Nat → Inputs} {run : Nat → State} (hrun : InfiniteRun env run) {m : Nat}
    (hrst : (env m).rst = false) (hoff : watchedInput (run m).state (env m) = false) :
    (run (m + 1)).state = (run m).state ∧ (run (m + 1)).entQ = (run m).entQ := by
  have h := step_hold (s := (run m).drive (env m)) hrst hoff
  rw [hrun m] at h
  rw [Host.Outcome.next.inj h]
  exact ⟨rfl, rfl⟩

/-- A state that is left, if at all, by its input alone, is left at an edge where the input is 1; until then nothing moves. -/
theorem exists_watched {env : Nat → Inputs} {run : Nat → State} (hrun : InfiniteRun env run) {n : Nat}
    (hrst : Undisturbed env run n) {st : SeqState} {a : Nat} (hna : n < a) (hopen : OpenUntil run n a)
    (hst : (run a).state = st) (hbusy : st ≠ .idle) {k : Nat}
    (hfair : watchedInput st (env (a + k)) = true ∨ (run (a + k)).state ≠ st) :
    ∃ m, a ≤ m ∧ OpenUntil run n m ∧ (run m).state = st ∧ (run m).entQ = (run a).entQ ∧
      watchedInput st (env m) = true := by
  induction k generalizing a with
  | zero => exact ⟨a, le_refl a, hopen, hst, rfl, hfair.resolve_right (not_not_intro hst)⟩
  | succ k ih =>
    cases hin : watchedInput st (env a) with
    | true => exact ⟨a, le_refl a, hopen, hst, rfl, hin⟩
    | false =>
      obtain ⟨hnext, hent⟩ := infiniteRun_hold hrun (hrst a hna hopen) (by rw [hst]; exact hin)
      have hst' : (run (a + 1)).state = st := hnext.trans hst
      have hopen' : OpenUntil run n (a + 1) := hopen.succ (by rw [hst']; exact hbusy)
      rw [← Nat.add_assoc, Nat.add_right_comm] at hfair
      obtain ⟨m, ham, hm⟩ := ih (by omega) hopen' hst' hfair
      rw [hent] at hm
      exact ⟨m, by omega, hm⟩

/-- In a fair run, a busy state of an undisturbed transaction comes to an edge at which its input is 1. -/
theorem fair_watched_eventually {env : Nat → Inputs} {run : Nat → State} (hrun : InfiniteRun env run)
    (hfair : Fair env run) {n : Nat} (hrst : Undisturbed env run n) {a : Nat} (hna : n < a)
    (hopen : OpenUntil run n a) :
    ∃ m, a ≤ m ∧ OpenUntil run n m ∧ (run m).state = (run a).state ∧ (run m).entQ = (run a).entQ ∧
      watchedInput (run a).state (env m) = true := by
  have hbusy : (run a).state ≠ .idle := hopen a hna (le_refl a)
  obtain ⟨m, ham, hm⟩ := fair_watched hfair hbusy
  obtain ⟨k, rfl⟩ := Nat.exists_eq_add_of_le ham
  exact exists_watched hrun hrst hna hopen rfl hbusy hm

/-- An undisturbed transaction in `REQ` or `WAIT` moves on, with its entropy. -/
theorem fair_moves_on {env : Nat → Inputs} {run : Nat → State} (hrun : InfiniteRun env run)
    (hfair : Fair env run) {n : Nat} (hrst : Undisturbed env run n) {a : Nat} (hna : n < a)
    (hopen : OpenUntil run n a) (hnot : (run a).state ≠ .done) :
    ∃ b, a < b ∧ OpenUntil run n b ∧ (run b).state = (run a).state.succ ∧ (run b).entQ = (run a).entQ := by
  obtain ⟨m, ham, hopenM, hst, hent, hin⟩ := fair_watched_eventually hrun hfair hrst hna hopen
  have hlow : (env m).rst = false := hrst m (by omega) hopenM
  have hbusy : (run a).state ≠ .idle := hopen a hna (le_refl a)
  have hnext : (run (m + 1)).state = (run a).state.succ := by
    rw [step_state (hrun m), inputsOf_drive, drive_state, nextSeqState, hlow, hst, hin]
    rfl
  have hstays : (run (m + 1)).state ≠ .idle := by
    rw [hnext]
    cases hs : (run a).state with
    | idle => exact absurd hs hbusy
    | req | wait => nofun
    | done => exact absurd hs hnot
  have hkeeps : (run (m + 1)).entQ = (run m).entQ := by
    refine (step_of_busy (hrun m) ?_ ?_ ?_).2.1
    · rw [drive_state, hst]; exact hbusy
    · rw [select_of_not_rst (s := (run m).drive (env m)) hlow]; exact stateStep_ne_reset _ _ _ _
    · intro hdel
      exact hnot (hst.symm.trans (step_of_select_deliver (hrun m) hdel).1)
  exact ⟨m + 1, by omega, hopenM.succ hstays, hnext, hkeeps.trans hent⟩

/-- The edge at which an infinite run accepts. -/
theorem infiniteRun_accept {env : Nat → Inputs} {run : Nat → State} (hrun : InfiniteRun env run) {n : Nat}
    (hst : (run n).state = .idle) (hin : (env n).inValid = true) (hrst : (env n).rst = false) :
    (run (n + 1)).state = .req ∧ (run (n + 1)).entQ = (env n).inEntropy := by
  have h := step_accept (s := (run n).drive (env n)) hrst hst hin
  rw [hrun n] at h
  rw [Host.Outcome.next.inj h]
  exact ⟨rfl, rfl⟩

/-- One cycle after `REQ` the state is not `DONE`, whatever the environment drives. -/
theorem infiniteRun_not_done_of_req {env : Nat → Inputs} {run : Nat → State} (hrun : InfiniteRun env run) {n : Nat}
    (hst : (run n).state = .req) : (run (n + 1)).state ≠ .done := by
  rw [step_state (hrun n), inputsOf_drive, drive_state, hst, nextSeqState]
  cases (env n).rst <;> cases watchedInput .req (env n) <;> nofun

/-- Settles O51: three waits, each ended by its fairness assumption, and the step that leaves `DONE` is `DELIVER`. -/
theorem fairRunsDeliver : Obligations.FairRunsDeliver := by
  intro env run hrun hfair n hidle hin hrst
  obtain ⟨hreq, hent⟩ := infiniteRun_accept hrun hidle hin hrst
  refine ⟨fun hundisturbed => ?_, fun j hnj hjn => ?_⟩
  · have hopen : OpenUntil run n (n + 1) := by
      intro j hnj hjn
      obtain rfl : j = n + 1 := by omega
      rw [hreq]
      nofun
    obtain ⟨a, hna, hopenA, hwait, hentA⟩ :=
      fair_moves_on hrun hfair hundisturbed (Nat.lt_succ_self n) hopen (by rw [hreq]; nofun)
    rw [hreq] at hwait
    obtain ⟨b, hab, hopenB, hdone, hentB⟩ :=
      fair_moves_on hrun hfair hundisturbed (by omega) hopenA (by rw [hwait]; nofun)
    rw [hwait] at hdone
    obtain ⟨m, hbm, hopenM, hst, hentM, hout⟩ :=
      fair_watched_eventually hrun hfair hundisturbed (by omega) hopenB
    rw [hdone] at hst hout
    have hlow : (env m).rst = false := hundisturbed m (by omega) hopenM
    have hsel : select ((run m).drive (env m)) = .deliver :=
      select_of_watched (s := (run m).drive (env m)) hlow hst hout
    obtain ⟨-, htaken, hregs⟩ := step_of_select_deliver (hrun m) hsel
    exact ⟨m, by omega, hopenM, hst, hlow, hout, by rw [hentM, hentB, hentA, hent], htaken, hregs⟩
  · rw [outValid_eq_decide]
    apply decide_eq_false
    obtain rfl | rfl : j = n + 1 ∨ j = n + 1 + 1 := by omega
    · rw [hreq]; nofun
    · exact infiniteRun_not_done_of_req hrun hreq

end Sys2Proof.Machine

/-! ## `BCAT`, `SLICE` and `FLAT` have inverses (R102, R112, R139) -/

namespace Sys2Proof.Machine

@[simp] theorem bcat_extract_entropy (ent : Ent) (cs : Cs) : (bcat ent cs).extractLsb' 8 256 = ent := by
  rw [extract_bcat_high ent cs 8 256 (le_refl 8)]
  exact BitVec.extractLsb'_eq_self

@[simp] theorem bcat_extract_checksum (ent : Ent) (cs : Cs) : (bcat ent cs).extractLsb' 0 8 = cs := by
  apply BitVec.eq_of_getLsbD_eq
  intro i hi
  rw [BitVec.getLsbD_extractLsb', decide_eq_true hi, Bool.true_and, Nat.zero_add, bcat_getLsbD_checksum ent cs hi]

@[simp] theorem bcat_of_extracts (comb : Comb) : bcat (comb.extractLsb' 8 256) (comb.extractLsb' 0 8) = comb := by
  apply BitVec.eq_of_getLsbD_eq
  intro i hi
  rw [bcat_getLsbD, BitVec.getLsbD_extractLsb', BitVec.getLsbD_extractLsb']
  split
  · next hlow => rw [decide_eq_true hlow, Bool.true_and, Nat.zero_add]
  · next hhigh =>
    have hin : i - 8 < 256 := by omega
    have hpos : 8 + (i - 8) = i := by omega
    rw [decide_eq_true hin, Bool.true_and, hpos]

theorem bcat_inj {ent ent' : Ent} {cs cs' : Cs} : bcat ent cs = bcat ent' cs' ↔ ent = ent' ∧ cs = cs' := by
  refine ⟨fun h => ⟨?_, ?_⟩, fun ⟨hent, hcs⟩ => by rw [hent, hcs]⟩
  · rw [← bcat_extract_entropy ent cs, h, bcat_extract_entropy]
  · rw [← bcat_extract_checksum ent cs, h, bcat_extract_checksum]

/-- Settles O6: the two fields of a combined word determine it and are determined by it. -/
theorem bcatHasExactInverses : Obligations.BcatHasExactInverses :=
  ⟨fun ent cs => ⟨bcat_extract_entropy ent cs, bcat_extract_checksum ent cs⟩, fun _ _ _ _ => bcat_inj.mp,
    bcat_of_extracts⟩

/-- Every bit of the combined word is bit `r` of the group `q`-th from the low end. -/
@[simp] theorem flat_slice (comb : Comb) : flat (slice comb) = comb := by
  apply BitVec.eq_of_getLsbD_eq
  intro i hi
  obtain ⟨q, r, hq, hr, rfl⟩ : ∃ q r, q < 24 ∧ r < 11 ∧ i = 11 * q + r :=
    ⟨i / 11, i % 11, by omega, Nat.mod_lt _ (by decide), (Nat.div_add_mod i 11).symm⟩
  have hpos : 253 - 11 * (23 - q) + r = 11 * q + r := by omega
  rw [flat_getLsbD _ q r hq hr, slice_getElem _ _ (by omega), BitVec.getLsbD_extractLsb', decide_eq_true hr,
    Bool.true_and, hpos]

@[simp] theorem slice_flat (idx : Indices) : slice (flat idx) = idx :=
  Vector.ext fun k hk => (slice_getElem_fin _ ⟨k, hk⟩).trans (flat_extractLsb' idx ⟨k, hk⟩)

/-- Settles O11. -/
theorem flatAndSliceAreInverse : Obligations.FlatAndSliceAreInverse := ⟨flat_slice, slice_flat⟩

theorem slice_bijective : Function.Bijective slice :=
  Function.bijective_iff_has_inverse.mpr ⟨flat, flat_slice, slice_flat⟩

/-- Settles O14: position `p` is place `p % 11` of group `p / 11`; an index is an 11-bit word. -/
theorem groupsCoverEveryBitOnce : Obligations.GroupsCoverEveryBitOnce := by
  refine ⟨fun p hp => ?_, fun comb k b => ?_, fun comb k => Nat.le_of_lt_succ (slice comb)[k].isLt, fun _ => Vector.length_toList,
    slice_bijective⟩
  · refine ⟨(⟨p / 11, by omega⟩, ⟨p % 11, by omega⟩), Nat.div_add_mod p 11, ?_⟩
    rintro ⟨k, b⟩ hkb
    have hdiv : k.val = p / 11 := by have := b.isLt; simp only at hkb; omega
    have hmod : b.val = p % 11 := by have := b.isLt; simp only at hkb; omega
    exact Prod.ext (Fin.ext hdiv) (Fin.ext hmod)
  · rw [slice_getElem_fin, seqAt]
    exact group_getLsbD_eq_seqAt comb k b.isLt

/-! ## The indices as digits (R114) -/

/-- The first `n` base-`b` digits of a number, the least significant first, are what it is modulo `b ^ n`. -/
theorem sum_digits (x b n : ℕ) : ∑ i ∈ Finset.range n, x / b ^ i % b * b ^ i = x % b ^ n := by
  induction n with
  | zero => rw [Finset.sum_range_zero, pow_zero, Nat.mod_one]
  | succ n ih => rw [Finset.sum_range_succ, ih, Nat.mod_pow_succ, Nat.mul_comm (b ^ n)]

theorem slice_toNat (comb : Comb) (k : Fin 24) : (slice comb)[k].toNat = comb.toNat / 2048 ^ (23 - k.val) % 2048 := by
  have hexp : 253 - 11 * k.val = 11 * (23 - k.val) := by omega
  rw [slice_getElem_fin, BitVec.extractLsb'_toNat, Nat.shiftRight_eq_div_pow, hexp, pow_mul]
  rfl

/-- The 24 indices, the most significant first, are the digits of the combined word (R114). -/
theorem sum_slice (comb : Comb) : ∑ k : Fin 24, (slice comb)[k].toNat * 2048 ^ (23 - k.val) = comb.toNat :=
  calc ∑ k : Fin 24, (slice comb)[k].toNat * 2048 ^ (23 - k.val)
      = ∑ k : Fin 24, comb.toNat / 2048 ^ (23 - k.val) % 2048 * 2048 ^ (23 - k.val) :=
        Finset.sum_congr rfl fun k _ => by rw [slice_toNat]
    _ = ∑ k ∈ Finset.range 24, comb.toNat / 2048 ^ (23 - k) % 2048 * 2048 ^ (23 - k) :=
        Fin.sum_univ_eq_sum_range (fun k => comb.toNat / 2048 ^ (23 - k) % 2048 * 2048 ^ (23 - k)) 24
    _ = ∑ i ∈ Finset.range 24, comb.toNat / 2048 ^ i % 2048 * 2048 ^ i :=
        Finset.sum_range_reflect (fun i => comb.toNat / 2048 ^ i % 2048 * 2048 ^ i) 24
    _ = comb.toNat % 2048 ^ 24 := sum_digits _ _ _
    _ = comb.toNat := Nat.mod_eq_of_lt (comb.isLt.trans_eq (pow_mul 2 11 24))

/-- Settles O12: `sum_slice`, and `bcat_toNat` for the combined word of an entropy and a checksum. -/
theorem indicesAreBase2048Digits : Obligations.IndicesAreBase2048Digits :=
  ⟨fun comb => (sum_slice comb).symm, fun ent cs => (sum_slice _).trans (bcat_toNat ent cs)⟩

/-! ## The byte window (R70) -/

/-- The 33 bytes and the two zero bytes appended are the bytes of the combined word times `2 ^ 16`. -/
theorem combByte_eq (comb : Comb) {j : Nat} (hj : j < 35) :
    combByte comb j = comb.toNat * 2 ^ 16 / 2 ^ (272 - 8 * j) % 256 := by
  rw [combByte]
  split
  · next hin =>
    have hexp : 272 - 8 * j = 256 - 8 * j + 16 := by omega
    rw [byteAt_toNat, hexp, pow_add, Nat.mul_div_mul_right _ _ (by decide)]
  · next hout =>
    obtain ⟨i, hi, hexp⟩ : ∃ i, i + 8 ≤ 16 ∧ 272 - 8 * j = i := ⟨_, by omega, rfl⟩
    have hsplit : 2 ^ 16 = 2 ^ (8 - i) * 256 * 2 ^ i := by
      rw [show (256 : Nat) = 2 ^ 8 from rfl, ← pow_add, ← pow_add]
      congr 1
      omega
    rw [hexp, hsplit, ← Nat.mul_assoc, Nat.mul_div_cancel _ (Nat.two_pow_pos i), ← Nat.mul_assoc, Nat.mul_mod_left]

/-- Three bytes side by side are the low 24 bits of the number they are cut from. -/
theorem threeBytes_eq_mod (z : Nat) : z / 65536 % 256 * 65536 + z / 256 % 256 * 256 + z % 256 = z % 2 ^ 24 := by
  omega

/-- A field inside the low bits of a number is that field of the number. -/
theorem mod_two_pow_div_mod (z : Nat) {n m w : Nat} (h : m + w ≤ n) :
    z % 2 ^ n / 2 ^ m % 2 ^ w = z / 2 ^ m % 2 ^ w := by
  obtain ⟨k, rfl⟩ := Nat.exists_eq_add_of_le h
  rw [Nat.add_assoc, pow_add 2 m, Nat.mod_mul_right_div_self, pow_add, Nat.mod_mul_right_mod]

/-- The 24-bit window of three bytes from byte `a` on. -/
theorem window_eq (comb : Comb) {a : Nat} (ha : a < 33) :
    combByte comb a * 65536 + combByte comb (a + 1) * 256 + combByte comb (a + 2) =
      comb.toNat * 2 ^ 16 / 2 ^ (256 - 8 * a) % 2 ^ 24 := by
  have hexp₀ : 272 - 8 * a = 256 - 8 * a + 16 := by omega
  have hexp₁ : 272 - 8 * (a + 1) = 256 - 8 * a + 8 := by omega
  have hexp₂ : 272 - 8 * (a + 2) = 256 - 8 * a := by omega
  rw [combByte_eq comb (by omega : a < 35), combByte_eq comb (by omega : a + 1 < 35),
    combByte_eq comb (by omega : a + 2 < 35), hexp₀, hexp₁, hexp₂, pow_add, pow_add, ← Nat.div_div_eq_div_mul,
    ← Nat.div_div_eq_div_mul]
  exact threeBytes_eq_mod _

/-- Settles O13: group `k` lies inside the window of the bytes it begins in. -/
theorem byteWindowAgrees : Obligations.ByteWindowAgrees := by
  intro comb k
  have hexp : 256 - 8 * (11 * k.val / 8) + (13 - 11 * k.val % 8) = 253 - 11 * k.val + 16 := by omega
  have hinside : 13 - 11 * k.val % 8 + 11 ≤ 24 := by omega
  calc groupByWindow comb k.val
      = comb.toNat * 2 ^ 16 / 2 ^ (256 - 8 * (11 * k.val / 8)) % 2 ^ 24 / 2 ^ (13 - 11 * k.val % 8) % 2 ^ 11 := by
        rw [← window_eq comb (by omega)]
        rfl
    _ = comb.toNat * 2 ^ 16 / 2 ^ (253 - 11 * k.val + 16) % 2 ^ 11 := by
        rw [mod_two_pow_div_mod _ hinside, Nat.div_div_eq_div_mul, ← pow_add, hexp]
    _ = comb.toNat / 2 ^ (253 - 11 * k.val) % 2 ^ 11 := by
        rw [pow_add 2 (253 - 11 * k.val) 16, Nat.mul_div_mul_right _ _ (by decide)]
    _ = (slice comb)[k].toNat := by
        rw [slice_getElem_fin, BitVec.extractLsb'_toNat, Nat.shiftRight_eq_div_pow]

/-! ## `ENCODE` for every hash (R69, R151) -/

theorem flat_encodeWith (hash : Ent → Dig) (ent : Ent) : flat (encodeWith hash ent) = bcat ent (csum hash ent) :=
  flat_slice _

theorem encodeWith_injective (hash : Ent → Dig) : Function.Injective (encodeWith hash) := by
  intro e e' h
  have hcomb := congrArg flat h
  rw [flat_encodeWith, flat_encodeWith] at hcomb
  exact (bcat_inj.mp hcomb).1

/-- A sequence of indices is an encoding exactly when it ends in the checksum of what comes before (R151). -/
theorem exists_encodeWith_eq_iff (hash : Ent → Dig) (idx : Indices) :
    (∃ ent, encodeWith hash ent = idx) ↔
      (flat idx).extractLsb' 0 8 = csum hash ((flat idx).extractLsb' 8 256) := by
  constructor
  · rintro ⟨ent, rfl⟩
    rw [flat_encodeWith, bcat_extract_checksum, bcat_extract_entropy]
  · intro h
    refine ⟨(flat idx).extractLsb' 8 256, ?_⟩
    rw [encodeWith, ← h, bcat_of_extracts, slice_flat]

/-- Settles O16: everything from `flat_encodeWith` and the inverses of `BCAT`; an index is an 11-bit word. -/
theorem encodeIsInjectiveWithExactImage : Obligations.EncodeIsInjectiveWithExactImage := by
  intro hash
  refine ⟨fun ent => ?_, fun _ _ h => encodeWith_injective hash h, exists_encodeWith_eq_iff hash,
    fun ent k => Nat.le_of_lt_succ (encodeWith hash ent)[k].isLt⟩
  rw [flat_encodeWith, bcat_extract_entropy]

/-- The last index, whatever the hash: three entropy bits above the checksum (R69). -/
theorem encodeWith_last (hash : Ent → Dig) (ent : Ent) :
    (encodeWith hash ent)[23] = ent.extractLsb' 0 3 ++ csum hash ent :=
  slice_bcat_last ent _

/-- Settles O17: no group above the last sees the checksum, and the last sees it in its low 8 bits. -/
theorem hashTouchesLastIndexOnly : Obligations.HashTouchesLastIndexOnly := by
  intro hash hash' ent
  have high (h : Ent → Dig) : (encodeWith h ent)[23].extractLsb' 8 3 = ent.extractLsb' 0 3 := by
    rw [encodeWith_last]
    exact BitVec.extractLsb'_append_eq_left
  refine ⟨fun k hk => ?_, (high hash).trans (high hash').symm, ?_⟩
  · have hlow : k.val ≤ 22 := by omega
    exact (slice_bcat_entropy ent _ hlow).trans (slice_bcat_entropy ent _ hlow).symm
  · rw [encodeWith_last, append_checksum_toNat]

end Sys2Proof.Machine

/-! ## Transfers (R45 to R49, R195) -/

namespace Sys2Proof.Machine

/-- The channel of a state transfers: the block is in that state, its input is 1, and no reset. -/
def transfers (st : SeqState) (s : State) (i : Inputs) : Bool := decide (s.state = st) && watchedInput st i && !i.rst

theorem xferIn_eq (s : State) (i : Inputs) : xferIn s i = transfers .idle s i := by
  rw [xferIn, inReady_eq_decide, Bool.and_comm i.inValid]
  rfl

theorem xferHreq_eq (s : State) (i : Inputs) : xferHreq s i = transfers .req s i := by
  rw [xferHreq, hreqValid_eq_decide]
  rfl

theorem xferHresp_eq (s : State) (i : Inputs) : xferHresp s i = transfers .wait s i := by
  rw [xferHresp, hrespReady_eq_decide, Bool.and_comm i.hrespValid]
  rfl

theorem xferOut_eq (s : State) (i : Inputs) : xferOut s i = transfers .done s i := by
  rw [xferOut, outValid_eq_decide]
  rfl

theorem transfers_iff {st : SeqState} {s : State} {i : Inputs} :
    transfers st s i = true ↔ s.state = st ∧ watchedInput st i = true ∧ i.rst = false := by
  simp [transfers, and_assoc]

/-- A channel transfers exactly when the step that moves its state is taken. -/
theorem transfers_iff_select (st : SeqState) (s : State) :
    transfers st s (inputsOf s) = true ↔
      select s = stateStep st true (inputsOf s).inEntropy (inputsOf s).hrespDigest := by
  rw [transfers_iff, select_eq_stateStep]
  cases (inputsOf s).rst with
  | true => simp [(stateStep_ne_reset st true (inputsOf s).inEntropy (inputsOf s).hrespDigest).symm]
  | false =>
    simp only [Bool.false_eq_true, if_false, stateStep_inj, and_true]
    exact and_congr_right fun h => by rw [h]

theorem transfers_of_rst (st : SeqState) {s : State} {i : Inputs} (h : i.rst = true) : transfers st s i = false := by
  simp [transfers, h]

theorem transfers_of_ne {st : SeqState} {s : State} (h : s.state ≠ st) (i : Inputs) : transfers st s i = false := by
  simp [transfers, h]

/-- Under reset no channel transfers (R195). -/
theorem no_xfer_of_rst {s : State} {i : Inputs} (h : i.rst = true) :
    xferIn s i = false ∧ xferHreq s i = false ∧ xferHresp s i = false ∧ xferOut s i = false := by
  rw [xferIn_eq, xferHreq_eq, xferHresp_eq, xferOut_eq]
  exact ⟨transfers_of_rst _ h, transfers_of_rst _ h, transfers_of_rst _ h, transfers_of_rst _ h⟩

/-- Each channel belongs to one state, so only the channel of the present state can transfer. -/
theorem count_transfers_le_one (s : State) (i : Inputs) :
    ([SeqState.idle, .req, .wait, .done].map fun st => transfers st s i).count true ≤ 1 := by
  have honly (st : SeqState) (h : transfers st s i = true) : st = s.state := (transfers_iff.mp h).1.symm
  have hnodup : [SeqState.idle, .req, .wait, .done].Nodup := by decide
  rw [List.count_eq_countP, List.countP_map]
  calc _ ≤ [SeqState.idle, .req, .wait, .done].countP (· == s.state) :=
        List.countP_mono_left fun st _ h => beq_iff_eq.mpr (honly st (beq_iff_eq.mp h))
    _ ≤ 1 := List.nodup_iff_count_le_one.mp hnodup s.state

/-- Settles O21: the four channels are `transfers` of the four states. -/
theorem transfersAreTheSteps : Obligations.TransfersAreTheSteps := by
  intro s
  refine ⟨?_, ?_, ?_, ?_, select_of_rst, no_xfer_of_rst, ?_⟩
  · rw [xferIn_eq]; exact transfers_iff_select .idle s
  · rw [xferHreq_eq]; exact transfers_iff_select .req s
  · rw [xferHresp_eq]; exact transfers_iff_select .wait s
  · rw [xferOut_eq]; exact transfers_iff_select .done s
  · rw [xferIn_eq, xferHreq_eq, xferHresp_eq, xferOut_eq]
    exact count_transfers_le_one s _

/-! ## The sequencer steps, rule by rule (R142 to R148) -/

/-- In `IDLE` every output has a fixed value (R25). -/
theorem outputs_of_idle {s : State} (h : s.state = .idle) : outputs s =
    { inReady := true, hreqValid := false, hreqMsg := 0, hrespReady := false, outValid := false, outIdxFlat := 0,
      busy := false } := by
  rw [outputs_eq, h]
  rfl

/-- Settles O31: `endEdge` writes `stim` and `edge` alone. -/
theorem endEdgeTouchesNoRegister : Obligations.EndEdgeTouchesNoRegister :=
  fun _ => ⟨rfl, rfl, rfl, rfl, rfl, rfl, outputs_eq_of_regs_eq rfl⟩

/-- Settles O22: `rst` alone selects the step; what it leaves is `IDLE` and zeros, where a second reset finds nothing to change. -/
theorem resetErases : Obligations.ResetErases := by
  refine ⟨fun _ => rfl, fun c e d h => ?_, fun s hrst => ⟨step_reset hrst, no_xfer_of_rst hrst⟩, fun s t h => ?_,
    fun s t hst h => ?_, by decide, fun t h => ?_⟩
  · exact (decodeCtl_eq_reset_iff c e d).mpr ((and_resetMask_eq_iff c).mpr h)
  · cases h
    exact ⟨flags_of_idle rfl, rfl⟩
  · cases h
    rw [outputs_of_idle hst, outputs_of_idle rfl]
  · cases h
    exact outIdxFlat_of_not_done nofun

/-- Settles O23. -/
theorem resetReachesResetValues : Obligations.ResetReachesResetValues :=
  ⟨fun _ hrst => ⟨_, step_reset hrst, rfl, rfl, rfl, outputs_of_idle rfl⟩, rfl, rfl⟩

/-- An edge forgets its inputs but for what the step selected carries. -/
theorem endEdgeOf_exec_drive (j : Instr) (s : State) (i i' : Inputs) :
    endEdgeOf (exec j (s.drive i)) = endEdgeOf (exec j (s.drive i')) := by
  cases j <;> rfl

/-- Inputs with the same `rst` that lead the state to the same step have the same effect. -/
theorem step_drive_congr {s : State} {i i' : Inputs} (hrst : i.rst = i'.rst)
    (h : stateStep s.state (watchedInput s.state i) i.inEntropy i.hrespDigest =
      stateStep s.state (watchedInput s.state i') i'.inEntropy i'.hrespDigest) :
    step (s.drive i) = step (s.drive i') := by
  have hsel : select (s.drive i) = select (s.drive i') := by
    rw [select_eq_stateStep, select_eq_stateStep, inputsOf_drive, inputsOf_drive, drive_state, drive_state, hrst, h]
  rw [step, step, hsel, endEdgeOf_exec_drive _ s i i']

/-- No edge writes `ent_q` in a transaction but to erase it (R143). -/
theorem step_entQ_of_busy {s t : State} (hbusy : s.state ≠ .idle) (h : step s = .next t) :
    t.entQ = s.entQ ∨ t.entQ = 0 ∧ (select s = .deliver ∨ select s = .reset) := by
  by_cases hreset : select s = .reset
  · rw [step_of_select hreset rfl] at h
    cases h
    exact .inr ⟨rfl, .inr hreset⟩
  by_cases hdeliver : select s = .deliver
  · obtain ⟨-, -, hregs⟩ := step_of_select_deliver h hdeliver
    exact .inr ⟨congrArg Regs.entQ hregs, .inl hdeliver⟩
  · exact .inl (step_of_busy h hbusy hreset hdeliver).2.1

/-- Settles O24: outside `IDLE` neither `in_valid` nor `in_entropy` reaches the selection. -/
theorem acceptCapturesEntropy : Obligations.AcceptCapturesEntropy := by
  refine ⟨fun _ _ => rfl, fun s hrst hst hin => ⟨step_accept hrst hst hin, ?_⟩, fun e s t h => ?_, fun s i v e hst => ?_,
    fun _ _ => step_entQ_of_busy, rfl⟩
  · rw [xferIn_eq]
    exact transfers_iff.mpr ⟨hst, hin, hrst⟩
  · cases h
    exact ⟨flags_eq _, hreqMsg_of_req rfl⟩
  · refine step_drive_congr rfl ?_
    cases hs : s.state with
    | idle => exact absurd hs hst
    | req | wait | done => rfl

/-- Settles O25: in `REQ` the message is the entropy; from `WAIT` and `DONE` an edge leads to any state but `REQ`. -/
theorem hreqHandsTheMessageOver : Obligations.HreqHandsTheMessageOver := by
  refine ⟨fun _ => rfl, fun s hrst hst hin => ⟨?_, ?_, ?_⟩, fun s t h => ?_, fun s t hst h => ?_, rfl⟩
  · rw [step_hreq hrst hst hin, recordRequest, hreqMsg_of_req hst]
    rfl
  · rw [xferHreq_eq]
    exact transfers_iff.mpr ⟨hst, hin, hrst⟩
  · rw [xferHresp_eq]
    exact transfers_of_ne (by rw [hst]; nofun) _
  · cases h
    exact ⟨flags_eq _, hreqMsg_of_not_req nofun⟩
  · rw [hreqValid_eq_decide, step_state h]
    apply decide_eq_false
    rcases hst with hst | hst <;> rw [hst, nextSeqState] <;> split_ifs <;> nofun

/-- The bus in `DONE` is the encoding of an entropy exactly when the two words and the checksum are its own. -/
theorem outIdxFlat_eq_encode_iff {t : State} (h : t.state = .done) :
    outIdxFlat t = flat (machineEncode t.entQ) ↔ t.csQ = machineCsum t.entQ := by
  rw [outIdxFlat_of_done h, machineEncode, flat_encodeWith, flat_slice, bcat_inj]
  exact and_iff_right rfl

/-- Settles O26: the digest enters through `trunc8` alone, and outside `WAIT` it does not reach the selection. -/
theorem hrespCapturesChecksum : Obligations.HrespCapturesChecksum := by
  refine ⟨fun _ _ => rfl, fun s hrst hst hin => ⟨step_hresp hrst hst hin, ?_⟩, fun d d' s hd => ?_, fun d s t h => ?_,
    fun s i v d hst => ?_, fun d s t h => ?_, rfl⟩
  · rw [xferHresp_eq]
    exact transfers_iff.mpr ⟨hst, hin, hrst⟩
  · have hexec (x : Dig) : exec (.hresp x) s = .next { s with csQ := x.extractLsb' 248 8, state := .done, hq := none } := rfl
    rw [hexec, hexec, hd]
  · cases h
    exact ⟨flags_eq _, outIdxFlat_of_done rfl⟩
  · refine step_drive_congr rfl ?_
    cases hs : s.state with
    | wait => exact absurd hs hst
    | idle | req | done => rfl
  · cases h
    exact outIdxFlat_eq_encode_iff rfl

/-- Settles O27: the bus of `DONE` is taken, and in the `IDLE` that follows it is zero. -/
theorem deliverHandsOverAndErases : Obligations.DeliverHandsOverAndErases := by
  refine ⟨fun _ => rfl, fun s hrst hst hin => ⟨?_, ?_, ?_⟩, fun s t h => ?_, fun s hinv hst => (hinv.2 hst).2, by decide,
    fun t h => ?_⟩
  · rw [step_deliver hrst hst hin, handOver, outIdxFlat_of_done hst]
    rfl
  · rw [xferOut_eq]
    exact transfers_iff.mpr ⟨hst, hin, hrst⟩
  · rw [xferIn_eq]
    exact transfers_of_ne (by rw [hst]; nofun) _
  · cases h
    exact ⟨flags_of_idle rfl, outIdxFlat_of_not_done nofun⟩
  · cases h
    rfl

/-- Settles O28: the input named for each state is its `watchedInput`, and while that is 0 the edge is `step_hold`. -/
theorem holdChangesNothing : Obligations.HoldChangesNothing := by
  refine ⟨fun _ => ⟨rfl, rfl, rfl, rfl⟩, fun s hrst hoff => ?_, fun t h => ?_⟩
  · have hin : watchedInput s.state (inputsOf s) = false := by
      cases hst : s.state <;> rw [hst] at hoff <;> exact hoff
    refine ⟨step_hold hrst hin, rfl, outputs_eq_of_regs_eq rfl, ?_⟩
    rw [select_of_watched hrst rfl hin]
    cases s.state <;> rfl
  · rw [step_hold rfl rfl] at h
    cases h
    rfl

end Sys2Proof.Machine

/-! ## Decoding and encoding (R71 to R77) -/

namespace Sys2Proof

/-- The control vector a step is encoded with selects the step, whatever it is. -/
theorem decodeCtl_of_ctl {i : Instr} {c : Ctl} (h : i.ctl = some c) : decodeCtl c i.inEntropy i.hrespDigest = i := by
  have row (st : SeqState) (b : Bool) (e : Ent) (d : Dig) : decodeCtl (rowMatch st b) e d = stateStep st b e d :=
    (decodeCtl_eq_stateStep_iff _ e d st b).mpr (by cases st <;> cases b <;> rfl)
  cases i with
  | reset => cases h; exact (decodeCtl_eq_reset_iff _ 0 0).mpr rfl
  | accept e => cases h; exact row .idle true e 0
  | hreq => cases h; exact row .req true 0 0
  | hresp d => cases h; exact row .wait true 0 d
  | deliver => cases h; exact row .done true 0 0
  | holdIdle => cases h; exact row .idle false 0 0
  | holdReq => cases h; exact row .req false 0 0
  | holdWait => cases h; exact row .wait false 0 0
  | holdDone => cases h; exact row .done false 0 0
  | _ => cases h

/-- A step is what its bytes decode to. -/
theorem decode_encode {i : Instr} {bs : List Byte} (h : encode i = some bs) : decode bs = .ok i := by
  obtain ⟨c, hc, rfl⟩ := Option.map_eq_some_iff.mp h
  rw [decode_instrBytes, decodeCtl_of_ctl hc]

/-- Settles O39: the operations without bytes are the datapath operations, and there are two kinds. -/
theorem decodeOfEncode : Obligations.DecodeOfEncode := by
  refine ⟨fun i bs => decode_encode, fun i => ?_⟩
  have htwo : i.kind = .step ↔ i.kind ≠ .datapath := by cases i.kind <;> decide
  rw [htwo, ne_eq, ← Machine.encode_eq_none_iff, ← ne_eq, Option.ne_none_iff_isSome]

/-- Settles O34: each control vector meets the row of its step. -/
theorem sampleControlVectorsDecode : Obligations.SampleControlVectorsDecode := by
  intro e d
  have row (c : Ctl) (st : SeqState) (b : Bool) (h : c &&& rowMask st = rowMatch st b) :
      decodeCtl c e d = stateStep st b e d := (decodeCtl_eq_stateStep_iff c e d st b).mpr h
  exact ⟨row _ .idle true rfl, row _ .req true rfl, row _ .wait true rfl, row _ .done true rfl,
    (decodeCtl_eq_reset_iff _ e d).mpr rfl, row _ .idle false rfl, row _ .req false rfl, row _ .wait false rfl,
    row _ .done false rfl⟩

/-- A control vector selects `RESET` or a step of one of the four states. -/
theorem decodeCtl_cases (c : Ctl) (e : Ent) (d : Dig) :
    decodeCtl c e d = .reset ∨ ∃ st b, decodeCtl c e d = stateStep st b e d := by
  obtain ⟨st, i, rfl⟩ := exists_ctlOf_eq c
  rw [decodeCtl_ctlOf_eq_stateStep]
  cases i.rst
  · exact .inr ⟨st, watchedInput st i, rfl⟩
  · exact .inl rfl

/-- The row of R73's table with a step's match and mask. -/
theorem exists_stepRow (st : SeqState) (b : Bool) : ∃ r ∈ stepRows, r.matchBits = rowMatch st b ∧ r.mask = rowMask st := by
  cases st <;> cases b <;> decide

/-- One row of R73 selects each of the 128 control vectors (R74). -/
theorem stepRows_filter_length : ∀ c : Ctl, (stepRows.filter (·.selects c)).length = 1 := by decide +kernel

theorem stepRow_unique {c : Ctl} {r r' : StepRow} (hr : r ∈ stepRows) (hsel : r.selects c = true) (hr' : r' ∈ stepRows)
    (hsel' : r'.selects c = true) : r' = r := by
  obtain ⟨x, hx⟩ := List.length_eq_one_iff.mp (stepRows_filter_length c)
  have hmem : r ∈ [x] := hx ▸ List.mem_filter.mpr ⟨hr, hsel⟩
  have hmem' : r' ∈ [x] := hx ▸ List.mem_filter.mpr ⟨hr', hsel'⟩
  rw [List.mem_singleton.mp hmem, List.mem_singleton.mp hmem']

theorem selects_iff {r : StepRow} {c : Ctl} : r.selects c = true ↔ c &&& r.mask = r.matchBits := beq_iff_eq

/-- Settles O35: the row of the step the decoder gives selects the vector, and the rows are disjoint. -/
theorem decodeIsTotalAndUnambiguous : Obligations.DecodeIsTotalAndUnambiguous := by
  intro c e d
  rcases decodeCtl_cases c e d with h | ⟨st, b, h⟩
  · have hsel : (StepRow.mk "RESET" 0x40 0x40).selects c = true :=
      selects_iff.mpr ((decodeCtl_eq_reset_iff c e d).mp h)
    have hmem : StepRow.mk "RESET" 0x40 0x40 ∈ stepRows := by decide
    exact ⟨_, hmem, hsel, fun _ => stepRow_unique hmem hsel, by rw [h]; rfl, by rw [h]; rfl⟩
  · obtain ⟨r, hmem, hmatch, hmask⟩ := exists_stepRow st b
    obtain ⟨hctl, hctlMask⟩ := stateStep_row st b e d
    have hsel : r.selects c = true := by
      rw [selects_iff, hmatch, hmask]
      exact (decodeCtl_eq_stateStep_iff c e d st b).mp h
    exact ⟨r, hmem, hsel, fun _ => stepRow_unique hmem hsel, by rw [h, hctl, hmatch],
      by rw [h, hctlMask, hmask]⟩

/-- The three fields of an encoded line (R77). -/
theorem encodeLine_fields (i : Inputs) :
    (encodeLine i).extractLsb' 512 5 = lineCode i ∧ (encodeLine i).extractLsb' 256 256 = i.inEntropy ∧
      (encodeLine i).extractLsb' 0 256 = i.hrespDigest := by
  refine ⟨?_, ?_, ?_⟩ <;> apply BitVec.eq_of_getLsbD_eq <;> intro j hj <;>
    rw [BitVec.getLsbD_extractLsb', decide_eq_true hj, Bool.true_and, encodeLine_getLsbD]
  · have hpos : 512 + j - 256 - 256 = j := by omega
    rw [if_neg (by omega), if_neg (by omega), hpos]
  · have hpos : 256 + j - 256 = j := by omega
    rw [if_neg (by omega), if_pos (by omega), hpos]
  · rw [if_pos (by omega), Nat.zero_add]

theorem encodeLine_codeBit (i : Inputs) (b : Nat) : (encodeLine i).getLsbD (512 + b) = (lineCode i).getLsbD b := by
  have hpos : 512 + b - 256 - 256 = b := by omega
  rw [encodeLine_getLsbD, if_neg (by omega), if_neg (by omega), hpos]

@[simp] theorem decodeLine_encodeLine (i : Inputs) : decodeLine (encodeLine i) = i := by
  obtain ⟨hout, hresp, hreq, hin, hrst⟩ := lineCode_bits i
  obtain ⟨-, hent, hdig⟩ := encodeLine_fields i
  rw [decodeLine, encodeLine_codeBit i 4, encodeLine_codeBit i 3, encodeLine_codeBit i 2, encodeLine_codeBit i 1,
    encodeLine_codeBit i 0, hout, hresp, hreq, hin, hrst, hent, hdig]

theorem lineCode_decodeLine (l : BitVec 517) {b : Nat} (hb : b < 5) :
    (lineCode (decodeLine l)).getLsbD b = l.getLsbD (512 + b) := by
  obtain ⟨hout, hresp, hreq, hin, hrst⟩ := lineCode_bits (decodeLine l)
  interval_cases b
  · exact hout
  · exact hresp
  · exact hreq
  · exact hin
  · exact hrst

@[simp] theorem encodeLine_decodeLine (l : BitVec 517) : encodeLine (decodeLine l) = l := by
  apply BitVec.eq_of_getLsbD_eq
  intro j hj
  rcases Nat.lt_or_ge j 512 with hdata | hcode
  · rw [encodeLine_getLsbD, if_pos (show j - 256 < 256 by omega), decodeLine, BitVec.getLsbD_extractLsb',
      BitVec.getLsbD_extractLsb']
    split
    · next hlow => rw [decide_eq_true hlow, Bool.true_and, Nat.zero_add]
    · next hhigh =>
      have hin : j - 256 < 256 := by omega
      have hpos : 256 + (j - 256) = j := by omega
      rw [decide_eq_true hin, Bool.true_and, hpos]
  · obtain ⟨b, rfl⟩ := Nat.exists_eq_add_of_le hcode
    rw [encodeLine_codeBit, lineCode_decodeLine l (by omega)]

/-- Settles O40. -/
theorem lineEncodingRoundTrips : Obligations.LineEncodingRoundTrips :=
  ⟨decodeLine_encodeLine, encodeLine_decodeLine, encodeLine_fields⟩

/-- A word of 8 bits with bit 7 zero is a control vector with zero data words. -/
theorem tableBytes_eq {w : Nat} (hw : w < 128) : tableBytes 8 w = instrBytes (BitVec.ofNat 7 w) 0 0 := by
  have hfirst : BitVec.ofNat 8 ((w % 2 ^ 8) >>> (8 * 0)) = (BitVec.ofNat 7 w).setWidth 8 := by
    apply BitVec.eq_of_toNat_eq
    simp
    omega
  have hrest : ∀ j ∈ List.range 64, BitVec.ofNat 8 ((w % 2 ^ 8) >>> (8 * (j + 1))) = 0 := by
    intro j _
    have hlt : w % 2 ^ 8 < 2 ^ (8 * (j + 1)) :=
      (Nat.mod_lt w (by decide)).trans_le (Nat.pow_le_pow_right (by decide) (by omega))
    rw [Nat.shiftRight_eq_div_pow, Nat.div_eq_of_lt hlt]
    rfl
  rw [tableBytes, List.range_succ_eq_map, List.map_cons, List.map_map, instrBytes, hfirst]
  exact congrArg _ ((List.map_congr_left hrest).trans (by decide))

namespace Machine

/-- The bytes of the cycle decode to the step it selects. -/
theorem decode_fetchBytes (s : State) : decode (fetchBytes s) = .ok (select s) := decode_instrBytes _ _ _

/-- Settles O33: the only operation the bytes decode to is the one selected, and `step` runs that. -/
theorem stepRunsTheDecodedOperation : Obligations.StepRunsTheDecodedOperation := by
  have selected {s : State} {i : Instr} (h : decode (fetchBytes s) = .ok i) : select s = i :=
    Except.ok.inj ((decode_fetchBytes s).symm.trans h)
  exact ⟨fun s i h => by rw [step, selected h], fun s t i h hexec => step_of_select (selected h) hexec, decode_fetchBytes⟩

/-- The inputs a placed control vector sets are its own, the data words zero. -/
theorem inputsOfWord_eq {w : Nat} (hw : w < 128) : inputsOfWord 8 w = inputsOfCtl (BitVec.ofNat 7 w) := by
  have hmod : w % 2 ^ 8 = w := Nat.mod_eq_of_lt (by omega)
  have hdata : (tableBytes 8 w).drop 1 = wordBytes 0 ++ wordBytes 0 := by rw [tableBytes_eq hw]; rfl
  rw [inputsOfWord, inputsOfCtl, hmod, hdata, List.take_left' (wordBytes_length 0), List.drop_left' (wordBytes_length 0),
    wordOfBytes_wordBytes]

/-- Settles O42: the control vector of the placed state is the word again. -/
theorem placedWordRuns : Obligations.PlacedWordRuns := by
  intro s w hw
  have hmod : w % 2 ^ 8 = w := Nat.mod_eq_of_lt (by omega)
  have hctl : ctlOf (stateOfWord 8 w) (inputsOfWord 8 w) = BitVec.ofNat 7 w := by
    rw [stateOfWord, hmod, inputsOfWord_eq hw, ctlOf_inputsOfCtl]
  have hsel : select (s.withFetchWord 8 w) = decodeCtl (ctlOf (stateOfWord 8 w) (inputsOfWord 8 w))
      (inputsOfWord 8 w).inEntropy (inputsOfWord 8 w).hrespDigest := rfl
  refine ⟨?_, rfl⟩
  rw [decodeTableWord, tableBytes_eq hw, decode_instrBytes, hsel, hctl, inputsOfWord_eq hw]
  rfl

end Machine

end Sys2Proof

/-! ## Trace lines and programs (R77, R78, R191) -/

namespace Sys2Proof.Machine

/-- The code of a line does not see its data words (R77). -/
theorem lineCode_data (i : Inputs) (e : Ent) (d : Dig) :
    lineCode { i with inEntropy := e, hrespDigest := d } = lineCode i := rfl

/-- The code of a union is the OR of the codes (R77). -/
theorem lineCode_unionInputs (i j : Inputs) : lineCode (unionInputs i j) = lineCode i ||| lineCode j := by
  obtain ⟨hout, hresp, hreq, hin, hrst⟩ := lineCode_bits (unionInputs i j)
  obtain ⟨hout₁, hresp₁, hreq₁, hin₁, hrst₁⟩ := lineCode_bits i
  obtain ⟨hout₂, hresp₂, hreq₂, hin₂, hrst₂⟩ := lineCode_bits j
  apply BitVec.eq_of_getLsbD_eq
  intro b hb
  rw [BitVec.getLsbD_or]
  interval_cases b
  · rw [hout, hout₁, hout₂, unionInputs]
  · rw [hresp, hresp₁, hresp₂, unionInputs]
  · rw [hreq, hreq₁, hreq₂, unionInputs]
  · rw [hin, hin₁, hin₂, unionInputs]
  · rw [hrst, hrst₁, hrst₂, unionInputs]

theorem lineInputs_put (last : Option Ent) (E : Ent) :
    lineInputs last (.put (hexOf E)) = some { noInputs with inValid := true, inEntropy := E } := by
  rw [lineInputs, hexValue_hexOf]
  rfl

theorem lineInputs_hrsp (last : Option Ent) (D : Dig) :
    lineInputs last (.hrsp (hexOf D)) = some { noInputs with hrespValid := true, hrespDigest := D } := by
  rw [lineInputs, hexValue_hexOf]
  rfl

/-- A union in which no data word is named twice sets the union of what its lines set. -/
theorem lineInputs_plus_eq {last : Option Ent} {a b : Line} {i j : Inputs} (ha : lineInputs last a = some i)
    (hb : lineInputs last b = some j) (hent : (a.namesEntropy && b.namesEntropy) = false)
    (hdig : (a.namesDigest && b.namesDigest) = false) :
    lineInputs last (.plus a b) = some (unionInputs i j) := by
  simp [lineInputs, ha, hb, hent, hdig]

/-- A union that names a data word twice sets nothing (log entry 10). -/
theorem lineInputs_plus_of_named_twice {last : Option Ent} {a b : Line}
    (h : (a.namesEntropy && b.namesEntropy) = true ∨ (a.namesDigest && b.namesDigest) = true) :
    lineInputs last (.plus a b) = none := by
  rw [lineInputs, if_pos (Bool.or_eq_true_iff.mpr h)]

/-- A word named by at most one of two lines, and zero in the other, is the named one in the OR. -/
theorem or_eq_ite_of_named {w : Nat} {x y : BitVec w} {p q : Bool} (hpq : (p && q) = false) (hx : p = false → x = 0)
    (hy : q = false → y = 0) : x ||| y = if p then x else y := by
  cases p with
  | true =>
    rw [hy (by simpa using hpq), if_pos rfl]
    exact BitVec.or_zero
  | false =>
    rw [hx rfl, if_neg Bool.false_ne_true]
    exact BitVec.zero_or

/-- Settles O41: the six lines by their equations, the unnamed words by `lineInputs_unnamed`, the union by the lemmas above. -/
theorem linesSetTheirInputs : Obligations.LinesSetTheirInputs := by
  intro last x
  refine ⟨⟨rfl, rfl, rfl, rfl⟩, ⟨_, rfl, rfl, rfl⟩, ⟨_, lineInputs_put last x, rfl, ?_⟩, ⟨_, rfl, rfl, rfl⟩,
    ⟨_, lineInputs_hrsp last x, rfl, ?_⟩, ⟨_, rfl, rfl, rfl⟩, fun l i => lineInputs_unnamed,
    fun a b i j ha hb hent hdig => ?_, fun a b => lineInputs_plus_of_named_twice⟩
  · exact (lineCode_data { noInputs with inValid := true } x 0).trans (by decide)
  · exact (lineCode_data { noInputs with hrespValid := true } 0 x).trans (by decide)
  · obtain ⟨hentA, hdigA⟩ := lineInputs_unnamed ha
    obtain ⟨hentB, hdigB⟩ := lineInputs_unnamed hb
    exact ⟨_, lineInputs_plus_eq ha hb hent hdig, lineCode_unionInputs i j, or_eq_ite_of_named hent hentA hentB,
      or_eq_ite_of_named hdig hdigA hdigB⟩

/-- Settles O56: the length is the one check on an operand, and what fails its check has no value, no inputs, no run. -/
theorem illFormedTextIsRejected : Obligations.IllFormedTextIsRejected := by
  refine ⟨fun h => ?_, lineInputs_of_not_wellFormed, fun h hw => ?_, fun p s ⟨l, hl, hw⟩ => ?_⟩
  · rw [hexValue_isSome, Hex.wellFormed, beq_iff_eq]
  · rw [expandPseudo, hexValue_of_not_wellFormed hw]
    rfl
  · exact runProgram_of_not_wellFormed s (List.all_eq_false.mpr ⟨l, hl, by rw [hw]; exact Bool.false_ne_true⟩)

/-- A well-formed program of one line runs what the line expands to. -/
theorem runProgram_singleton {p : Pseudo} {ls : List Line} (hp : p.wellFormed = true) (hls : expandPseudo p = some ls)
    (s : State) : runProgram [p] s = runLines ls s.hq s := by
  simp [runProgram, hp, expandProgram, hls]

theorem expandProgram_map_line (ls : List Line) : expandProgram (ls.map .line) = some ls := by
  induction ls with
  | nil => rfl
  | cons l ls ih =>
    rw [List.map_cons, expandProgram, expandPseudo, ih]
    rfl

/-- A program without pseudo-lines runs its lines. -/
theorem runProgram_map_line {ls : List Line} (hls : ls.all Line.wellFormed = true) (s : State) :
    runProgram (ls.map .line) s = runLines ls s.hq s := by
  have hall : (ls.map Pseudo.line).all Pseudo.wellFormed = true := by rw [List.all_map]; exact hls
  rw [runProgram, if_pos hall, expandProgram_map_line]

theorem expandPseudo_encode (E : Ent) :
    expandPseudo (.encode (hexOf E)) = some [.put (hexOf E), .hgo, .hrsp (hexOf (Config.hash E)), .get] := by
  rw [expandPseudo, hexValue_hexOf]
  rfl

/-! The next state of a driven edge, for the lines a program is made of. -/

theorem step_drive_accept {s : State} (hst : s.state = .idle) (E : Ent) :
    step (s.drive { noInputs with inValid := true, inEntropy := E }) =
      .next { s with state := .req, entQ := E, stim := [], edge := s.edge + 1 } :=
  step_accept rfl hst rfl

theorem step_drive_hreq {s : State} (hst : s.state = .req) :
    step (s.drive { noInputs with hreqReady := true }) =
      .next { s with state := .wait, hq := some s.entQ, stim := [], edge := s.edge + 1 } := by
  rw [step_hreq (s := s.drive { noInputs with hreqReady := true }) rfl hst rfl, recordRequest, hreqMsg_of_req (s := s.drive _) hst]
  rfl

theorem step_drive_hresp {s : State} (hst : s.state = .wait) (D : Dig) :
    step (s.drive { noInputs with hrespValid := true, hrespDigest := D }) =
      .next { s with state := .done, csQ := trunc8 D, hq := none, stim := [], edge := s.edge + 1 } :=
  step_hresp rfl hst rfl

theorem step_drive_deliver {s : State} (hst : s.state = .done) :
    step (s.drive { noInputs with outReady := true }) =
      .next { s with state := .idle, entQ := 0, csQ := 0, taken := s.taken ++ [outIdxFlat s], stim := [],
                     edge := s.edge + 1 } :=
  step_deliver rfl hst rfl

theorem step_drive_reset (s : State) :
    step (s.drive { noInputs with rst := true }) =
      .next { s with state := .idle, entQ := 0, csQ := 0, hq := none, stim := [], edge := s.edge + 1 } :=
  step_reset rfl

theorem step_drive_hold {s : State} {i : Inputs} (hrst : i.rst = false) (hin : watchedInput s.state i = false) :
    step (s.drive i) = .next { s with stim := [], edge := s.edge + 1 } :=
  step_hold (s := s.drive i) hrst hin

theorem lastRequest_of_req {s : State} (hst : s.state = .req) (last : Option Ent) :
    lastRequest last s { noInputs with hreqReady := true } = some s.entQ := by
  rw [lastRequest, xferHreq_eq, if_pos (transfers_iff.mpr ⟨hst, rfl, rfl⟩), hreqMsg_of_req hst]

theorem lastRequest_of_not_ready {i : Inputs} (hi : i.hreqReady = false) (last : Option Ent) (s : State) :
    lastRequest last s i = last := by
  rw [lastRequest, xferHreq_eq, if_neg]
  simp [transfers, watchedInput, hi]

/-- `WAIT n`: idle lines hold in every state. -/
theorem runLines_nops (n : Nat) (last : Option Ent) (s : State) :
    ∃ u, runLines (List.replicate n .nop) last s = some u ∧ regs u = regs s ∧ u.hq = s.hq ∧ u.taken = s.taken ∧
      u.edge = s.edge + n := by
  induction n generalizing last s with
  | zero => exact ⟨s, rfl, rfl, rfl, rfl, rfl⟩
  | succ n ih =>
    have hold : step (s.drive noInputs) = .next { s with stim := [], edge := s.edge + 1 } :=
      step_drive_hold rfl (by cases s.state <;> rfl)
    obtain ⟨u, hrun, hregs, hhq, htaken, hedge⟩ :=
      ih (lastRequest last s noInputs) { s with stim := [], edge := s.edge + 1 }
    refine ⟨u, ?_, hregs, hhq, htaken, by rw [hedge]; exact Nat.succ_add_eq_add_succ _ _⟩
    rw [List.replicate_succ, runLines_cons rfl hold, hrun]

/-- `ENCODE` from `IDLE`: four steps, the mnemonic taken, the registers erased. -/
theorem runProgram_encode {s : State} (hst : s.state = .idle) (E : Ent) :
    runProgram [.encode (hexOf E)] s =
      some { s with state := .idle, entQ := 0, csQ := 0, hq := none, taken := s.taken ++ [flat (machineEncode E)],
                    stim := [], edge := s.edge + 4 } := by
  rw [runProgram_singleton (p := .encode (hexOf E)) (hexOf_wellFormed E) (expandPseudo_encode E),
    runLines_cons (lineInputs_put _ E) (step_drive_accept hst E), runLines_cons rfl (step_drive_hreq rfl),
    runLines_cons (lineInputs_hrsp _ _) (step_drive_hresp rfl _), runLines_cons rfl (step_drive_deliver rfl)]
  rfl

/-- While a request is pending, the message of the last transfer is it. -/
theorem lastRequest_of_hq {s t : State} {i : Inputs} {last : Option Ent} (hlast : ∀ m, s.hq = some m → last = some m)
    (h : step (s.drive i) = .next t) {m : Ent} (hm : t.hq = some m) : lastRequest last s i = some m := by
  rw [step_hq h, inputsOf_drive] at hm
  rw [lastRequest]
  cases hx : xferHreq s i with
  | true =>
    obtain ⟨-, -, hrst⟩ := transfers_iff.mp ((xferHreq_eq s i).symm.trans hx)
    have hx' : xferHreq (s.drive i) i = true := hx
    rwa [hrst, if_neg Bool.false_ne_true, hx', if_pos rfl] at hm
  | false =>
    have hx' : xferHreq (s.drive i) i = false := hx
    rw [hx', if_neg Bool.false_ne_true] at hm
    rw [if_neg Bool.false_ne_true]
    split_ifs at hm
    exact hlast m hm

/-- `HRSP HASH` answers the last message though no request is pending any more: an `HRESP` has taken the answer. -/
theorem runProgram_answer_twice {s : State} (hst : s.state = .req) :
    runProgram [.line .hgo, .line .hrspHash, .line .hrspHash] s =
      some { s with state := .done, csQ := machineCsum s.entQ, hq := none, stim := [], edge := s.edge + 3 } := by
  rw [show [Pseudo.line .hgo, .line .hrspHash, .line .hrspHash] = [Line.hgo, .hrspHash, .hrspHash].map .line from rfl,
    runProgram_map_line rfl, runLines_cons rfl (step_drive_hreq hst), lastRequest_of_req hst,
    runLines_cons rfl (step_drive_hresp rfl _), lastRequest_of_not_ready rfl,
    runLines_cons rfl (step_drive_hold rfl rfl)]
  rfl

/-- The same after a reset. -/
theorem runProgram_answer_after_reset {s : State} (hst : s.state = .req) :
    runProgram [.line .hgo, .line .rst, .line .hrspHash] s =
      some { s with state := .idle, entQ := 0, csQ := 0, hq := none, stim := [], edge := s.edge + 3 } := by
  rw [show [Pseudo.line .hgo, .line .rst, .line .hrspHash] = [Line.hgo, .rst, .hrspHash].map .line from rfl,
    runProgram_map_line rfl, runLines_cons rfl (step_drive_hreq hst), lastRequest_of_req hst,
    runLines_cons rfl (step_drive_reset _), lastRequest_of_not_ready rfl,
    runLines_cons rfl (step_drive_hold rfl rfl)]
  rfl

/-- Settles O50: each program is run line by line. -/
theorem pseudoLinesRun : Obligations.PseudoLinesRun := by
  refine ⟨fun s E hst => ⟨_, runProgram_encode hst E, rfl, rfl, rfl⟩, expandPseudo_encode, fun s n => ?_, fun m => ?_,
    fun s i t last hlast h m => lastRequest_of_hq hlast h, fun _ _ _ => rfl, fun s hst =>
      ⟨⟨_, runProgram_answer_twice hst, rfl, rfl⟩, ⟨_, runProgram_answer_after_reset hst, rfl, rfl⟩⟩⟩
  · rw [runProgram_singleton rfl rfl]
    exact runLines_nops n s.hq s
  · rw [lineInputs_hrsp]
    rfl

/-! ## The caller's lookup (R41, R42) -/

theorem dictRead_injective (dict : Dictionary) : Function.Injective (dictRead dict) := by
  intro i j h
  have hi : i.toNat < dict.words.toList.length := i.isLt.trans_eq dict.words.length_toList.symm
  have hj : j.toNat < dict.words.toList.length := j.isLt.trans_eq dict.words.length_toList.symm
  apply BitVec.eq_of_toNat_eq
  apply (dict.distinct.getElem_inj_iff (hi := hi) (hj := hj)).mp
  rwa [Vector.getElem_toList, Vector.getElem_toList]

theorem resolve_injective (dict : Dictionary) : Function.Injective (resolve dict) :=
  (List.map_injective_iff.mpr (dictRead_injective dict)).comp fun _ _ h => Vector.toList_inj.mp h

/-- Word `k` is the Dictionary's entry at index `k`. -/
theorem resolve_getElem? (dict : Dictionary) (idx : Indices) (k : Fin 24) :
    (resolve dict idx)[k.val]? = dict.words[idx[k].toNat]? := by
  have hk : k.val < idx.toList.length := k.isLt.trans_eq idx.length_toList.symm
  have hword : idx[k].toNat < 2048 := idx[k].isLt
  rw [resolve, List.getElem?_map, List.getElem?_eq_getElem hk, Vector.getElem_toList, Vector.getElem?_eq_getElem hword]
  rfl

/-- Settles O57: the words are distinct, so the lookup is injective, and `ENCODE` is. -/
theorem resolveLosesNothing : Obligations.ResolveLosesNothing := by
  intro dict
  refine ⟨fun idx => ?_, resolve_getElem? dict, fun _ _ h => dictRead_injective dict h,
    fun _ _ h => resolve_injective dict h, fun hash _ _ h => encodeWith_injective hash (resolve_injective dict h)⟩
  rw [resolve, List.length_map, Vector.length_toList]

/-! ## The SHA-256 function (R175 to R181) -/

/-- The digest of the fifth vector's entropy. -/
theorem sha256_entropyV5 :
    sha256 entropyV5 = 0x005b30a3ab171b8c3bed01ad5e340de09c0efab48ec02a82bac2081139d18663 := by decide +kernel

theorem csum_entropyV5 : csum sha256 entropyV5 = 0x00 := by
  rw [csum_eq, sha256_entropyV5]
  decide

/-- Settles O18: five evaluations of the function; the checksums are the digests' first bytes. -/
theorem shaDigestsOfKnownEntropies : Obligations.ShaDigestsOfKnownEntropies := by
  have hzero : sha256 0 = 0x66687aadf862bd776c8fc18b8e9f8e20089714856ee233b3902a591d0d5f2925 := by decide +kernel
  obtain ⟨-, -, -, hcsumExample⟩ := csumIsTheFirstDigestByte
  obtain ⟨-, -, -, hencodeExample⟩ := encodeIsSliceOfBcat
  have hcsum : csum sha256 0 = 0x66 := hcsumExample sha256 hzero
  refine ⟨hzero, by decide +kernel, by decide +kernel, by decide +kernel, sha256_entropyV5, hcsum,
    csum_entropyV5, hencodeExample sha256 hcsum⟩

/-- The indices of the source's fifth vector, each with its word (spec/95_test_vectors.md section 1.1). -/
def fifthVector : List (Idx × String) :=
  [(837, "hamster"), (487, "diagram"), (1369, "private"), (547, "dutch"), (292, "cause"), (463, "delay"),
   (1369, "private"), (1104, "meat"), (1628, "slide"), (1819, "toddler"), (1429, "razor"), (204, "book"),
   (839, "happy"), (663, "fancy"), (806, "gospel"), (1785, "tennis"), (1084, "maple"), (497, "dilemma"),
   (1048, "loan"), (2027, "word"), (1594, "shrug"), (923, "inflict"), (463, "delay"), (1024, "length")]

theorem fifthVector_indices : (encodeWith sha256 entropyV5).toList = fifthVector.map Prod.fst := by
  rw [encodeWith, csum_entropyV5]
  decide

theorem fifthVector_known : ∀ p ∈ fifthVector, p ∈ knownWords ++ knownLastWords := by decide +kernel

/-- Settles O19: every pair of the fifth vector is one the Dictionary must have. -/
theorem fifthVectorResolves : Obligations.FifthVectorResolves := by
  intro dict hdict
  have hread : ∀ p ∈ fifthVector, (dictRead dict ∘ Prod.fst) p = p.2 := fun p hp => hdict p (fifthVector_known p hp)
  rw [resolve, fifthVector_indices, List.map_map, List.map_congr_left hread]
  rfl

end Sys2Proof.Machine
